-- ==== Sys2Proof/Word.lean ====
section
/-! DEFINITION. The widths of the i220a CORE: a machine word and an address are 64 bits (00_scope.md R8, R9;
92_eei_decisions.md D4), a byte 8, a nybble 4 (R9, R12). -/

namespace Sys2Proof

/-- A machine word: register contents, addresses, the program counter (00_scope.md R8: `WORD` = 8 bytes, `XLEN` = 64). -/
abbrev Word := BitVec 64

/-- The addressable unit of memory (10_state.md R36). -/
abbrev Byte := BitVec 8

/-- "4-bit half of a byte" (00_scope.md R12). -/
abbrev Nybble := BitVec 4

end Sys2Proof
end

