-- ==== Sys2Proof/Config.lean ====
section
/-! DEFINITION. The open parameters of 00_scope.md R8, as one structure of plain data. A state carries its parameters
(Machine/State.lean), no transition writes them, and a statement about every state therefore holds for every value of
them that `Config.wf` admits. DESIGN CHOICE, log entries 1, 2 and 10. -/

namespace Sys2Proof

/-- `JXX_BUBBLE_POLICY` (00_scope.md R8, 70_reset_and_hazards.md R277, 90_conflicts.md C1). -/
inductive JxxBubblePolicy where
  | nontrivialSelector
  | takenOnly
deriving DecidableEq, Repr

/-- What push and pop do when their operand is the stack pointer itself: the three candidate behaviours of
93_implementation_defined.md U4, which 44_jumps_calls_stack.md R214 asks a model to carry as a parameter. They differ
for no other operand. -/
inductive SpOperandPolicy where
  /-- The lines of R212 and R213: push stores the decremented pointer; pop leaves `old + 8`. -/
  | adjusted
  /-- The textbook machine's: push stores the old pointer; pop keeps the loaded word. -/
  | original
  /-- Pop's adjustment re-reads the register: pop leaves `loaded + 8`; push as in `adjusted`. -/
  | reread
deriving DecidableEq, Repr

/-- The parameters of 00_scope.md R8 that the spec leaves to the model as arguments. -/
structure Config where
  /-- `MEM_SIZE`, bytes of memory. -/
  memSize : Nat
  /-- `RESET_PC`, the entry point. -/
  resetPc : Word
  /-- `JXX_BUBBLE_POLICY`. -/
  jxxPolicy : JxxBubblePolicy
  /-- `CALLRET_SP_TRACKING`. -/
  callRetSp : Bool
  /-- The treatment of `push r4` and `pop r4` (U4). -/
  spOperand : SpOperandPolicy
deriving DecidableEq, Repr

/-- The ranges R8 gives the parameters: `8 <= MEM_SIZE <= 2^63` and `RESET_PC < MEM_SIZE`. -/
abbrev Config.wf (c : Config) : Prop :=
  8 ≤ c.memSize ∧ c.memSize ≤ 2 ^ 63 ∧ c.resetPc.toNat < c.memSize

/-- The parameters of `State.reset`: R8's defaults, and for `MEM_SIZE`, which has none, the 256 of 95_test_vectors.md
(DESIGN CHOICE, log entry 2). -/
def Config.default : Config where
  memSize := 256
  resetPc := 0
  jxxPolicy := .nontrivialSelector
  callRetSp := false
  spOperand := .adjusted

end Sys2Proof
end

