-- ==== Sys2Proof/Machine/State.lean ====
section
/-! DEFINITION. The state of the i220a CORE as plain data (10_state.md R20), the state after reset, and the two reason
types of a step that does not go on. Every error of this hardware is itself a next state (42_engine_step.md R153,
R161), so the model has no fault, and no instruction is refused. -/

namespace Sys2Proof.Machine

/-- The run status (10_state.md R32). -/
inductive RunStatus where
  | run | hlt | adr | ins
deriving DecidableEq, Repr

/-- What `raise Fatal(PC, sel)` captures (10_state.md R34, 40_condition_codes.md R113). -/
structure FatalReport where
  pc : Word
  sel : Nybble
deriving DecidableEq, Repr

/-- A hazard record `{d1, d0}`: the registers an issued instruction writes, `0xE` for none
(70_reset_and_hazards.md R271). -/
structure Record where
  d1 : Nybble
  d0 : Nybble
deriving DecidableEq, Repr

/-- `0xEE`, the "no register written" sentinel (70_reset_and_hazards.md R271). -/
def Record.none : Record := ⟨0xE, 0xE⟩

/-- `win[0..2]`, the newest first (10_state.md R37). -/
structure Window where
  w0 : Record
  w1 : Record
  w2 : Record
deriving DecidableEq, Repr

/-- The Pipeline Hazard Simulator's own state (10_state.md R37). -/
structure StallSim where
  win : Window
  countdown : Nat
  stalling : Bool
  pending : Record
deriving DecidableEq, Repr

/-- The start state of the Pipeline Hazard Simulator (10_state.md R39, 70_reset_and_hazards.md R260). -/
def StallSim.start : StallSim where
  win := ⟨.none, .none, .none⟩
  countdown := 4
  stalling := false
  pending := .none

/-- Memory as the bytes that do not read as an unlisted address does, by strictly rising address (Machine/Ops.lean
gives the form and the operations). -/
abbrev Memory := List Host.Cell

/-- The whole state (10_state.md R20), and the parameters it runs under (log entry 1). -/
structure State where
  /-- The model's parameters (00_scope.md R8); no part of the hardware's state, written by nothing. -/
  cfg : Config
  /-- `x[0..13]` (10_state.md R21). -/
  regs : Vector Word 14
  /-- `PC` (10_state.md R25). -/
  pc : Word
  /-- `CC` (10_state.md R29, R30). -/
  cc : Byte
  /-- `STAT` (10_state.md R32). -/
  stat : RunStatus
  /-- `FATAL` and its captured pair: `FATAL = 1` iff a report is held (10_state.md R34; log entry 6). -/
  fatal : Option FatalReport
  /-- `M[0..MEM_SIZE-1]` (10_state.md R36). -/
  mem : Memory
  /-- The Pipeline Hazard Simulator's state (10_state.md R37). -/
  sim : StallSim
deriving DecidableEq, Repr

/-- The machine right after reset (10_state.md R39, 70_reset_and_hazards.md R260). DESIGN CHOICE: the registers, `CC`
and memory, whose reset values the spec leaves open, are 0 (log entries 3, 4, 5), and the parameters are
`Config.default` (log entry 2). -/
def State.reset : State where
  cfg := Config.default
  regs := Vector.replicate 14 0
  pc := Config.default.resetPc
  cc := 0
  stat := .run
  fatal := none
  mem := []
  sim := StallSim.start

/-- No one raises a fault: an address fault, an instruction fault and the fatal selector error are next states with
`STAT` or `FATAL` written and the partial effects kept (60_exceptions.md R230, R237; log entry 7). -/
inductive Fault where
deriving DecidableEq, Repr

inductive Refusal where
  /-- The dispatch answers this for an instruction that has no meaning yet. Safe: it claims nothing of it. At present
  no instruction is in that case. -/
  | notModelled (mnemonic : String)
deriving DecidableEq, Repr

end Sys2Proof.Machine
end

