-- ==== Sys2Proof/Syntax.lean ====
section
/-! DEFINITION. The instructions: one constructor per row of spec/opcode_table.json, the 27 instructions of
30_encoding.md R91 and the four classes of header bytes that are none (R93, R94, R95). Each carries exactly the operand
fields it uses (R98): padding and unused register nybbles, which the engine never looks at (R96), are no part of it. -/

namespace Sys2Proof

/-- The seven conditions in the order of 30_encoding.md R89. -/
inductive Cond where
  | always | le | l | e | ne | ge | g
deriving DecidableEq, Repr

/-- The four ALU functions in the order of 30_encoding.md R90. -/
inductive AluFn where
  | add | sub | and | xor
deriving DecidableEq, Repr

/-- The twelve base opcodes in the order of 30_encoding.md R87. -/
inductive BaseOp where
  | halt | nop | cmov | irmov | rmmov | mrmov | alu | jump | call | ret | push | pop
deriving DecidableEq, Repr

/-- The instructions. A register operand is the nybble of the register byte that plays the role 30_encoding.md R86
gives it; whether it names a register is decided when it is used (10_state.md R23). -/
inductive Instr where
  | halt
  | nop
  | rrmov (rA rB : Nybble)
  | cmovle (rA rB : Nybble)
  | cmovl (rA rB : Nybble)
  | cmove (rA rB : Nybble)
  | cmovne (rA rB : Nybble)
  | cmovge (rA rB : Nybble)
  | cmovg (rA rB : Nybble)
  | irmov (rB : Nybble) (v : Word)
  | rmmov (rA rB : Nybble) (d : Word)
  | mrmov (rA rB : Nybble) (d : Word)
  | add (rA rB : Nybble)
  | sub (rA rB : Nybble)
  | and (rA rB : Nybble)
  | xor (rA rB : Nybble)
  | jmp (v : Word)
  | jle (v : Word)
  | jl (v : Word)
  | je (v : Word)
  | jne (v : Word)
  | jge (v : Word)
  | jg (v : Word)
  | call (v : Word)
  | ret
  | push (rA : Nybble)
  | pop (rA : Nybble)
  /-- Header `27` to `2F` (R95, 43_moves.md R188): the fatal selector error. -/
  | badSelectorMove (sel : Nybble)
  /-- Header `64` to `6F` (R94): an instruction fault. -/
  | illegalAluFunction (fn : Nybble)
  /-- Header `77` to `7F` (R95, 44_jumps_calls_stack.md R200): the fatal selector error. -/
  | badSelectorJump (sel : Nybble)
  /-- Header `C0` to `FF` (R93, 42_engine_step.md R159): an instruction fault; the whole header byte. -/
  | illegalBaseOpcode (header : Byte)
deriving DecidableEq, Repr

/-- The conditional move with a given condition (30_encoding.md R97: `rrmov` is the one with selector 0). -/
def Instr.ofMove : Cond → Nybble → Nybble → Instr
  | .always, rA, rB => .rrmov rA rB
  | .le, rA, rB => .cmovle rA rB
  | .l, rA, rB => .cmovl rA rB
  | .e, rA, rB => .cmove rA rB
  | .ne, rA, rB => .cmovne rA rB
  | .ge, rA, rB => .cmovge rA rB
  | .g, rA, rB => .cmovg rA rB

/-- The jump with a given condition (30_encoding.md R97: `jmp` is the one with selector 0). -/
def Instr.ofJump : Cond → Word → Instr
  | .always, v => .jmp v
  | .le, v => .jle v
  | .l, v => .jl v
  | .e, v => .je v
  | .ne, v => .jne v
  | .ge, v => .jge v
  | .g, v => .jg v

/-- The ALU instruction with a given function. -/
def Instr.ofAlu : AluFn → Nybble → Nybble → Instr
  | .add, rA, rB => .add rA rB
  | .sub, rA, rB => .sub rA rB
  | .and, rA, rB => .and rA rB
  | .xor, rA, rB => .xor rA rB

/-- The length in bytes (30_encoding.md R82). The four classes that are no instruction are known from their header
byte alone (R92). -/
def Instr.length : Instr → Nat
  | .halt | .nop | .ret => 1
  | .rrmov .. | .cmovle .. | .cmovl .. | .cmove .. | .cmovne .. | .cmovge .. | .cmovg .. => 2
  | .add .. | .sub .. | .and .. | .xor .. | .push .. | .pop .. => 2
  | .irmov .. | .rmmov .. | .mrmov .. => 10
  | .jmp .. | .jle .. | .jl .. | .je .. | .jne .. | .jge .. | .jg .. | .call .. => 9
  | .badSelectorMove .. | .illegalAluFunction .. | .badSelectorJump .. | .illegalBaseOpcode .. => 1

end Sys2Proof
end

