-- ==== Sys2Proof/Machine/Flags.lean ====
section
/-! DEFINITION. The condition-code byte (10_state.md R29, R30), the flag rules of the ALU (41_alu.md R132 to R136), and
the Condition Evaluator (40_condition_codes.md R112). -/

namespace Sys2Proof.Machine

/-- `OF = CC[0]`. -/
def ofFlag (cc : Byte) : Bool := cc.getLsbD 0

/-- `SF = CC[1]`. -/
def sfFlag (cc : Byte) : Bool := cc.getLsbD 1

/-- `ZF = CC[2]`. -/
def zfFlag (cc : Byte) : Bool := cc.getLsbD 2

/-- The byte `{0b00000, ZF, SF, OF}` (41_alu.md R131 line 8). -/
def packCc (zf sf ovf : Bool) : Byte :=
  0#5 ++ BitVec.ofBool zf ++ BitVec.ofBool sf ++ BitVec.ofBool ovf

/-- `sign(v) = v[63]` (00_scope.md R9). -/
def sign (v : Word) : Bool := v.getLsbD 63

/-- `Compute`, the result: A + B, B - A, A AND B, A XOR B (41_alu.md R130, R132 to R135). -/
def aluResult (f : AluFn) (a b : Word) : Word :=
  match f with
  | .add => a + b
  | .sub => b - a
  | .and => a &&& b
  | .xor => a ^^^ b

/-- `Compute`, the overflow flag, from the operands and the result (41_alu.md R132 to R135). -/
def aluOverflow (f : AluFn) (a b r : Word) : Bool :=
  match f with
  | .add => (sign a == sign b) && (sign r != sign a)
  | .sub => (sign a != sign b) && (sign r != sign b)
  | .and | .xor => false

/-- The condition-code byte an ALU instruction writes (41_alu.md R131 line 8, R136). -/
def aluFlags (f : AluFn) (a b : Word) : Byte :=
  let r := aluResult f a b
  packCc (decide (r = 0)) (sign r) (aluOverflow f a b r)

/-- `Cond(sel)` for a legal selector (40_condition_codes.md R112). -/
def condHolds (c : Cond) (cc : Byte) : Bool :=
  let lt := sfFlag cc ^^ ofFlag cc
  match c with
  | .always => true
  | .le => lt || zfFlag cc
  | .l => lt
  | .e => zfFlag cc
  | .ne => !zfFlag cc
  | .ge => !lt
  | .g => !lt && !zfFlag cc

end Sys2Proof.Machine
end

