-- ==== Sys2Proof/WellFormed.lean ====
section
/-! DEFINITION. Which terms of `Instr` some header byte stands for. The 27 instructions always are: every value of a
register nybble or of a word has an encoding (30_encoding.md R84, R85). The four other classes carry part of their
header byte, and only the values R93, R94 and R95 give them. -/

namespace Sys2Proof

def Instr.wellFormed : Instr → Bool
  | .badSelectorMove sel => decide (7 ≤ sel.toNat)
  | .illegalAluFunction fn => decide (4 ≤ fn.toNat)
  | .badSelectorJump sel => decide (7 ≤ sel.toNat)
  | .illegalBaseOpcode header => decide (0xC0 ≤ header.toNat)
  | .halt | .nop | .ret | .push .. | .pop .. | .call .. => true
  | .rrmov .. | .cmovle .. | .cmovl .. | .cmove .. | .cmovne .. | .cmovge .. | .cmovg .. => true
  | .irmov .. | .rmmov .. | .mrmov .. | .add .. | .sub .. | .and .. | .xor .. => true
  | .jmp .. | .jle .. | .jl .. | .je .. | .jne .. | .jge .. | .jg .. => true

end Sys2Proof
end

