-- ==== Sys2Proof/Decode.lean ====
section
/-! DEFINITION. Bytes to instructions and back (30_encoding.md): the bit fields, the byte order, the three numbering
tables R87, R89, R90, a decoder total on any bytes that rejects by name, and an encoder. The decoder asks for a byte
after the header only where the instruction needs one (R92), so an illegal or fatal header decodes from one byte. -/

namespace Sys2Proof

/-- `hi(b) = b[7:4]` (00_scope.md R9). -/
def hi (b : Byte) : Nybble := b.extractLsb' 4 4

/-- `lo(b) = b[3:0]` (00_scope.md R9). -/
def lo (b : Byte) : Nybble := b.extractLsb' 0 4

/-- The byte `{h, l}` (00_scope.md R9). -/
def nybbles (h l : Nybble) : Byte := h ++ l

/-- A word from its eight bytes in address order: little-endian (20_memory.md R56). -/
def wordOfBytes (b0 b1 b2 b3 b4 b5 b6 b7 : Byte) : Word := b7 ++ b6 ++ b5 ++ b4 ++ b3 ++ b2 ++ b1 ++ b0

/-- Byte `i` of a word in address order, `v[8i+7:8i]` (20_memory.md R56). -/
def byteOfWord (v : Word) (i : Nat) : Byte := v.extractLsb' (8 * i) 8

/-- The eight bytes of a word in address order. -/
def bytesOfWord (v : Word) : List Byte :=
  [byteOfWord v 0, byteOfWord v 1, byteOfWord v 2, byteOfWord v 3,
   byteOfWord v 4, byteOfWord v 5, byteOfWord v 6, byteOfWord v 7]

/-- The base opcode of a header's high nybble (30_encoding.md R87); none for `0xC` to `0xF`. -/
def baseOpOfNybble (n : Nybble) : Option BaseOp :=
  match n.toNat with
  | 0x0 => some .halt
  | 0x1 => some .nop
  | 0x2 => some .cmov
  | 0x3 => some .irmov
  | 0x4 => some .rmmov
  | 0x5 => some .mrmov
  | 0x6 => some .alu
  | 0x7 => some .jump
  | 0x8 => some .call
  | 0x9 => some .ret
  | 0xA => some .push
  | 0xB => some .pop
  | _ => none

/-- The number of a base opcode (30_encoding.md R87). -/
def nybbleOfBaseOp : BaseOp → Nybble
  | .halt => 0x0
  | .nop => 0x1
  | .cmov => 0x2
  | .irmov => 0x3
  | .rmmov => 0x4
  | .mrmov => 0x5
  | .alu => 0x6
  | .jump => 0x7
  | .call => 0x8
  | .ret => 0x9
  | .push => 0xA
  | .pop => 0xB

/-- The condition of a selector (30_encoding.md R89): the whole nybble is compared; none for 7 to 15. -/
def condOfNybble (n : Nybble) : Option Cond :=
  match n.toNat with
  | 0 => some .always
  | 1 => some .le
  | 2 => some .l
  | 3 => some .e
  | 4 => some .ne
  | 5 => some .ge
  | 6 => some .g
  | _ => none

/-- The selector of a condition (30_encoding.md R89). -/
def nybbleOfCond : Cond → Nybble
  | .always => 0
  | .le => 1
  | .l => 2
  | .e => 3
  | .ne => 4
  | .ge => 5
  | .g => 6

/-- The ALU function of a function nybble (30_encoding.md R90); none for 4 to 15. -/
def aluFnOfNybble (n : Nybble) : Option AluFn :=
  match n.toNat with
  | 0 => some .add
  | 1 => some .sub
  | 2 => some .and
  | 3 => some .xor
  | _ => none

/-- The function nybble of an ALU function (30_encoding.md R90). -/
def nybbleOfAluFn : AluFn → Nybble
  | .add => 0
  | .sub => 1
  | .and => 2
  | .xor => 3

/-- Why bytes decode to nothing: a byte the instruction needs is not there. -/
inductive DecodeReject where
  | noHeader
  | noRegisterByte
  | noWord
deriving DecidableEq, Repr

/-- What the decoder answers: an instruction and the bytes after it, or a rejection by name. -/
inductive DecodeResult where
  | instr (i : Instr) (rest : List Byte)
  | reject (why : DecodeReject)
deriving DecidableEq, Repr

/-- Format R (30_encoding.md R81): the register byte, `rA` high, `rB` low (R84). -/
def decodeRegs (bytes : List Byte) (k : Nybble → Nybble → Instr) : DecodeResult :=
  match bytes with
  | rb :: rest => .instr (k (hi rb) (lo rb)) rest
  | [] => .reject .noRegisterByte

/-- Format J (30_encoding.md R81): the word `V`, used as it stands (R85). -/
def decodeWord (bytes : List Byte) (k : Word → Instr) : DecodeResult :=
  match bytes with
  | b0 :: b1 :: b2 :: b3 :: b4 :: b5 :: b6 :: b7 :: rest => .instr (k (wordOfBytes b0 b1 b2 b3 b4 b5 b6 b7)) rest
  | _ => .reject .noWord

/-- Format M (30_encoding.md R81): the register byte, then the word `V`. -/
def decodeRegsWord (bytes : List Byte) (k : Nybble → Nybble → Word → Instr) : DecodeResult :=
  match bytes with
  | rb :: rest => decodeWord rest (k (hi rb) (lo rb))
  | [] => .reject .noRegisterByte

/-- The decoder: the high nybble of the header selects the base opcode, the low nybble is looked at for op 2, 6 and 7
only (30_encoding.md R83, R91, R93 to R96). -/
def decode (bytes : List Byte) : DecodeResult :=
  match bytes with
  | [] => .reject .noHeader
  | b0 :: rest =>
    match baseOpOfNybble (hi b0) with
    | some .halt => .instr .halt rest
    | some .nop => .instr .nop rest
    | some .cmov =>
      match condOfNybble (lo b0) with
      | some c => decodeRegs rest (Instr.ofMove c)
      | none => .instr (.badSelectorMove (lo b0)) rest
    | some .irmov => decodeRegsWord rest (fun _ rB v => .irmov rB v)
    | some .rmmov => decodeRegsWord rest .rmmov
    | some .mrmov => decodeRegsWord rest .mrmov
    | some .alu =>
      match aluFnOfNybble (lo b0) with
      | some f => decodeRegs rest (Instr.ofAlu f)
      | none => .instr (.illegalAluFunction (lo b0)) rest
    | some .jump =>
      match condOfNybble (lo b0) with
      | some c => decodeWord rest (Instr.ofJump c)
      | none => .instr (.badSelectorJump (lo b0)) rest
    | some .call => decodeWord rest .call
    | some .ret => .instr .ret rest
    | some .push => decodeRegs rest (fun rA _ => .push rA)
    | some .pop => decodeRegs rest (fun rA _ => .pop rA)
    | none => .instr (.illegalBaseOpcode b0) rest

/-- A header byte from a base opcode and a function nybble (30_encoding.md R83). -/
def headerOf (op : BaseOp) (fn : Nybble) : Byte := nybbles (nybbleOfBaseOp op) fn

/-- The "no register" nybble, the canonical value of an unused one (10_state.md R23, 30_encoding.md R96). -/
def rNone : Nybble := 0xE

/-- The bytes of a conditional move. -/
def encodeMove (c : Cond) (rA rB : Nybble) : List Byte := [headerOf .cmov (nybbleOfCond c), nybbles rA rB]

/-- The bytes of a jump. -/
def encodeJump (c : Cond) (v : Word) : List Byte := headerOf .jump (nybbleOfCond c) :: bytesOfWord v

/-- The bytes of an ALU instruction. -/
def encodeAlu (f : AluFn) (rA rB : Nybble) : List Byte := [headerOf .alu (nybbleOfAluFn f), nybbles rA rB]

/-- The canonical bytes of an instruction (30_encoding.md R91, R96: padding 0, unused register nybbles `0xE`). -/
def encode : Instr → List Byte
  | .halt => [headerOf .halt 0]
  | .nop => [headerOf .nop 0]
  | .rrmov rA rB => encodeMove .always rA rB
  | .cmovle rA rB => encodeMove .le rA rB
  | .cmovl rA rB => encodeMove .l rA rB
  | .cmove rA rB => encodeMove .e rA rB
  | .cmovne rA rB => encodeMove .ne rA rB
  | .cmovge rA rB => encodeMove .ge rA rB
  | .cmovg rA rB => encodeMove .g rA rB
  | .irmov rB v => headerOf .irmov 0 :: nybbles rNone rB :: bytesOfWord v
  | .rmmov rA rB d => headerOf .rmmov 0 :: nybbles rA rB :: bytesOfWord d
  | .mrmov rA rB d => headerOf .mrmov 0 :: nybbles rA rB :: bytesOfWord d
  | .add rA rB => encodeAlu .add rA rB
  | .sub rA rB => encodeAlu .sub rA rB
  | .and rA rB => encodeAlu .and rA rB
  | .xor rA rB => encodeAlu .xor rA rB
  | .jmp v => encodeJump .always v
  | .jle v => encodeJump .le v
  | .jl v => encodeJump .l v
  | .je v => encodeJump .e v
  | .jne v => encodeJump .ne v
  | .jge v => encodeJump .ge v
  | .jg v => encodeJump .g v
  | .call v => headerOf .call 0 :: bytesOfWord v
  | .ret => [headerOf .ret 0]
  | .push rA => [headerOf .push 0, nybbles rA rNone]
  | .pop rA => [headerOf .pop 0, nybbles rA rNone]
  | .badSelectorMove sel => [headerOf .cmov sel]
  | .illegalAluFunction fn => [headerOf .alu fn]
  | .badSelectorJump sel => [headerOf .jump sel]
  | .illegalBaseOpcode header => [header]

/-- The longest instruction, in bytes (30_encoding.md R81). -/
def maxLength : Nat := 10

/-- The `n` bytes of a number, the least significant first: how spec/opcode_table.json numbers an instruction's bits,
whose byte 0 is the one at the lowest address. -/
def bytesOfNat : Nat → Nat → List Byte
  | 0, _ => []
  | n + 1, w => BitVec.ofNat 8 w :: bytesOfNat n (w / 256)

/-- The bytes of a table word: its low `nbits` bits, every bit above them 0, up to the longest instruction. -/
def tableBytes (nbits w : Nat) : List Byte := bytesOfNat maxLength (w % 2 ^ nbits)

/-- The instruction the decoder reads from a table word; none where it rejects. -/
def decodeTableWord (nbits w : Nat) : Option Instr :=
  match decode (tableBytes nbits w) with
  | .instr i _ => some i
  | .reject _ => none

end Sys2Proof
end

