-- ==== Sys2Proof/Machine/Ops.lean ====
section
/-! DEFINITION. The named operations of the machine: memory in its canonical form, the store's accessors (00_scope.md
R10, 10_state.md R38), raising an error as one shared operation with the way out of it beside, and the one combinator in
which a meaning runs its pseudocode line by line (R11). -/

namespace Sys2Proof.Machine

/-! Memory. -/

/-- What an unlisted address reads as. DESIGN CHOICE, log entry 5: 0x00. -/
def Memory.fill : Byte := 0

/-- The canonical form: addresses strictly rising, and no entry equal to what an unlisted address reads as. -/
abbrev Memory.wf (m : Memory) : Prop :=
  List.Pairwise (fun c d : Host.Cell => c.1 < d.1) m ∧ ∀ c ∈ m, c.2 ≠ Memory.fill

/-- Every listed address lies below a bound. -/
abbrev Memory.below (n : Nat) (m : Memory) : Prop := ∀ c ∈ m, c.1 < n

/-- The byte at an address. -/
def Memory.read : Memory → Nat → Byte
  | [], _ => Memory.fill
  | (x, c) :: m, a => if a = x then c else Memory.read m a

/-- Memory with the byte at one address replaced; keeps the canonical form. -/
def Memory.write : Memory → Nat → Byte → Memory
  | [], a, b => if b = Memory.fill then [] else [(a, b)]
  | (x, c) :: m, a, b =>
    if a < x then (if b = Memory.fill then (x, c) :: m else (a, b) :: (x, c) :: m)
    else if a = x then (if b = Memory.fill then m else (a, b) :: m)
    else (x, c) :: Memory.write m a b

/-- Bytes stored at consecutive addresses, those outside the first `size` addresses left out. -/
def Memory.writeBytes (size : Nat) : Memory → Nat → List Byte → Memory
  | m, _, [] => m
  | m, a, b :: bs => Memory.writeBytes size (if a < size then Memory.write m a b else m) (a + 1) bs

/-- The word at `a..a+7` (20_memory.md R56). -/
def Memory.word (m : Memory) (a : Nat) : Word :=
  wordOfBytes (m.read a) (m.read (a + 1)) (m.read (a + 2)) (m.read (a + 3))
    (m.read (a + 4)) (m.read (a + 5)) (m.read (a + 6)) (m.read (a + 7))

/-- Memory with the word at `a..a+7` replaced (20_memory.md R56). -/
def Memory.writeWord (m : Memory) (a : Nat) (v : Word) : Memory :=
  (((((((m.write a (byteOfWord v 0)).write (a + 1) (byteOfWord v 1)).write (a + 2) (byteOfWord v 2)).write
    (a + 3) (byteOfWord v 3)).write (a + 4) (byteOfWord v 4)).write (a + 5) (byteOfWord v 5)).write
    (a + 6) (byteOfWord v 6)).write (a + 7) (byteOfWord v 7)

/-- The bytes from an address on, at most `n`, stopping at the end of memory. -/
def Memory.bytesFrom (m : Memory) (size : Nat) : Nat → Nat → List Byte
  | 0, _ => []
  | n + 1, a => if a < size then m.read a :: Memory.bytesFrom m size n (a + 1) else []

/-! The store's accessors: `none` where 00_scope.md R10 says the primitive fails. -/

/-- `x[i]` (00_scope.md R10, 10_state.md R23). -/
def State.readReg (s : State) (i : Nybble) : Option Word :=
  if h : i.toNat < 14 then some s.regs[i.toNat] else none

/-- `x[i] <- v` (00_scope.md R10, 10_state.md R23). -/
def State.writeReg (s : State) (i : Nybble) (v : Word) : Option State :=
  if h : i.toNat < 14 then some { s with regs := s.regs.set i.toNat v } else none

/-- `pc <- v` (10_state.md R27). -/
def State.writePc (s : State) (v : Word) : Option State :=
  if v.toNat < s.cfg.memSize then some { s with pc := v } else none

/-- The range check of a byte access (20_memory.md R53). -/
def State.byteInRange (s : State) (a : Word) : Bool := decide (a.toNat < s.cfg.memSize)

/-- The range check of a word access: all eight bytes, before any of them moves (20_memory.md R53). -/
def State.wordInRange (s : State) (a : Word) : Bool := decide (a.toNat + 8 ≤ s.cfg.memSize)

/-- `MemRead(a, 1)` (20_memory.md R53). -/
def State.readByte (s : State) (a : Word) : Option Byte :=
  if s.byteInRange a then some (s.mem.read a.toNat) else none

/-- `MemRead(a, 8)` (20_memory.md R53, R56). -/
def State.readWord (s : State) (a : Word) : Option Word :=
  if s.wordInRange a then some (s.mem.word a.toNat) else none

/-- `MemWrite(a, 1, v)`, which the store has and no instruction uses (00_scope.md R10). -/
def State.writeByte (s : State) (a : Word) (b : Byte) : Option State :=
  if s.byteInRange a then some { s with mem := s.mem.write a.toNat b } else none

/-- `MemWrite(a, 8, v)` (20_memory.md R53, R56). -/
def State.writeWord (s : State) (a : Word) (v : Word) : Option State :=
  if s.wordInRange a then some { s with mem := s.mem.writeWord a.toNat v } else none

/-! Errors. -/

/-- The three error kinds (60_exceptions.md R230). -/
inductive Raise where
  /-- Any failing store access (R231). -/
  | addressFault
  /-- An illegal header byte (R232). -/
  | instructionFault
  /-- A bad condition selector (R234). -/
  | fatal (sel : Nybble)
deriving DecidableEq, Repr

/-- Taking an error, the whole of it (60_exceptions.md R237): `STAT` or `FATAL` is written and the step ends. Nothing
is saved, nothing is redirected; `raise Fatal` captures the program counter and leaves `STAT` (40_condition_codes.md
R113). -/
def State.take (s : State) : Raise → State
  | .addressFault => { s with stat := .adr }
  | .instructionFault => { s with stat := .ins }
  | .fatal sel => { s with fatal := some { pc := s.pc, sel := sel } }

/-- The way out of an error: no instruction returns from one (60_exceptions.md R239); the `reset` transaction does. It
sets what 70_reset_and_hazards.md R260 lists, and gives registers, `CC` and memory the driver's `INIT_REGS`, `INIT_CC`
and `INIT_MEM` (log entry 24: bytes of the image outside memory are left out). -/
def State.resetTransaction (s : State) (initRegs : Vector Word 14) (initCc : Byte) (initMem : List Host.Cell) : State where
  cfg := s.cfg
  regs := initRegs
  pc := s.cfg.resetPc
  cc := initCc
  stat := .run
  fatal := none
  mem := initMem.foldl (fun m c => if c.1 < s.cfg.memSize then m.write c.1 c.2 else m) []
  sim := StallSim.start

/-- Whether the engine stands still: `FATAL = 1` or `STAT` is not `RUN` (42_engine_step.md R150 lines 1 and 2). -/
def State.stopped (s : State) : Bool := s.fatal.isSome || decide (s.stat ≠ .run)

/-! Line by line. -/

/-- What a meaning answers. -/
abbrev Result := Host.Outcome State Fault Refusal

/-- One line of pseudocode that can fail: where its accessor failed, the step ends in an address fault of the state the
earlier lines left (42_engine_step.md R153), and otherwise the next line runs. -/
def orAddressFault {α : Type} (access : Option α) (s : State) (next : α → Result) : Result :=
  match access with
  | none => .next (s.take .addressFault)
  | some a => next a

end Sys2Proof.Machine
end

