-- ==== Sys2Proof/Machine/Operands.lean ====
section
/-! DEFINITION. The operand forms beyond a plain register nybble (which `State.readReg` and `State.writeReg` are):
base + displacement, the implicit stack pointer, the stack pointer as an explicit operand of push and pop, and the
address of the following instruction. -/

namespace Sys2Proof.Machine

/-- The effective address of rmmov and mrmov, `(base + D) mod 2^64` (20_memory.md R58). -/
def effectiveAddress (base d : Word) : Word := base + d

/-- `SP_REG`, the stack pointer's number (10_state.md R24: the spec's own default; log entry 11). -/
def spReg : Fin 14 := 4

/-- `x[SP]` (10_state.md R24). -/
def State.sp (s : State) : Word := s.regs[spReg.val]

/-- `x[SP] <- v` (10_state.md R24). -/
def State.setSp (s : State) (v : Word) : State := { s with regs := s.regs.set spReg.val v }

/-- The address a push or call stores to: `(x[SP] - 8) mod 2^64` (20_memory.md R58, R65). -/
def State.pushAddress (s : State) : Word := s.sp - 8

/-- The stack pointer after a pop or return: `(sp + 8) mod 2^64` (20_memory.md R58, R65). -/
def popAdjust (sp : Word) : Word := sp + 8

/-- The state in which push reads its operand (44_jumps_calls_stack.md R212 line 5: after the adjustment), given the
states before and after the stack pointer's adjustment. Only `push r4` can tell them apart; `original` is U4's second
candidate. -/
def pushOperandState (before after : State) : State :=
  match before.cfg.spOperand with
  | .original => before
  | .adjusted | .reread => after

/-- The registers pop leaves when its operand names a register, `v` loaded from `sp` (44_jumps_calls_stack.md R213
lines 5 and 6). Only `pop r4` can tell the three orders apart (R214, U4). -/
def State.popRegs (s : State) (rA : Nybble) (sp v : Word) : Option State :=
  match s.cfg.spOperand with
  | .adjusted => (s.writeReg rA v).map (fun s1 => s1.setSp (popAdjust sp))
  | .original => (s.setSp (popAdjust sp)).writeReg rA v
  | .reread => (s.writeReg rA v).map (fun s1 => s1.setSp (popAdjust s1.sp))

end Sys2Proof.Machine
end

