-- ==== Sys2Proof/Machine/Alu.lean ====
section
/-! DEFINITION. add, sub, and, xor (41_alu.md). -/

namespace Sys2Proof.Machine

/-- Lines 4 to 9 of the frame of 41_alu.md R131: both registers are read, the result is written to the second, then
the whole condition-code byte, then the program counter. -/
def aluFrame (f : AluFn) (rA rB : Nybble) (s : State) : Result :=
  orAddressFault (s.readReg rA) s fun a =>
  orAddressFault (s.readReg rB) s fun b =>
  orAddressFault (s.writeReg rB (aluResult f a b)) s fun s1 =>
  let s2 := { s1 with cc := aluFlags f a b }
  orAddressFault (s2.writePc (s.pc + 2)) s2 fun s3 => .next s3

/-- 41_alu.md R132. -/
def execAdd (rA rB : Nybble) (s : State) : Result := aluFrame .add rA rB s

/-- 41_alu.md R133. -/
def execSub (rA rB : Nybble) (s : State) : Result := aluFrame .sub rA rB s

/-- 41_alu.md R134. -/
def execAnd (rA rB : Nybble) (s : State) : Result := aluFrame .and rA rB s

/-- 41_alu.md R135. -/
def execXor (rA rB : Nybble) (s : State) : Result := aluFrame .xor rA rB s

end Sys2Proof.Machine
end

