-- ==== Sys2Proof/Machine/Jumps.lean ====
section
/-! DEFINITION. The jumps (44_jumps_calls_stack.md R200 to R207). -/

namespace Sys2Proof.Machine

/-- The frame of 44_jumps_calls_stack.md R200, the destination word read. -/
def jumpFrame (c : Cond) (v : Word) (s : State) : Result :=
  orAddressFault (s.writePc (if condHolds c s.cc then v else s.pc + 9)) s fun s1 => .next s1

/-- 44_jumps_calls_stack.md R201. -/
def execJmp (v : Word) (s : State) : Result := jumpFrame .always v s

/-- 44_jumps_calls_stack.md R202. -/
def execJle (v : Word) (s : State) : Result := jumpFrame .le v s

/-- 44_jumps_calls_stack.md R203. -/
def execJl (v : Word) (s : State) : Result := jumpFrame .l v s

/-- 44_jumps_calls_stack.md R204. -/
def execJe (v : Word) (s : State) : Result := jumpFrame .e v s

/-- 44_jumps_calls_stack.md R205. -/
def execJne (v : Word) (s : State) : Result := jumpFrame .ne v s

/-- 44_jumps_calls_stack.md R206. -/
def execJge (v : Word) (s : State) : Result := jumpFrame .ge v s

/-- 44_jumps_calls_stack.md R207. -/
def execJg (v : Word) (s : State) : Result := jumpFrame .g v s

end Sys2Proof.Machine
end

