-- ==== Sys2Proof/Machine/Moves.lean ====
section
/-! DEFINITION. The conditional moves, irmov, rmmov, mrmov (43_moves.md). -/

namespace Sys2Proof.Machine

/-- The frame of 43_moves.md R180: the condition is evaluated and the program counter advanced first; the registers
are touched only when the condition holds. -/
def moveFrame (c : Cond) (rA rB : Nybble) (s : State) : Result :=
  orAddressFault (s.writePc (s.pc + 2)) s fun s1 =>
  if condHolds c s.cc then
    orAddressFault (s1.readReg rA) s1 fun v =>
    orAddressFault (s1.writeReg rB v) s1 fun s2 => .next s2
  else .next s1

/-- 43_moves.md R181. -/
def execRrmov (rA rB : Nybble) (s : State) : Result := moveFrame .always rA rB s

/-- 43_moves.md R182. -/
def execCmovle (rA rB : Nybble) (s : State) : Result := moveFrame .le rA rB s

/-- 43_moves.md R183. -/
def execCmovl (rA rB : Nybble) (s : State) : Result := moveFrame .l rA rB s

/-- 43_moves.md R184. -/
def execCmove (rA rB : Nybble) (s : State) : Result := moveFrame .e rA rB s

/-- 43_moves.md R185. -/
def execCmovne (rA rB : Nybble) (s : State) : Result := moveFrame .ne rA rB s

/-- 43_moves.md R186. -/
def execCmovge (rA rB : Nybble) (s : State) : Result := moveFrame .ge rA rB s

/-- 43_moves.md R187. -/
def execCmovg (rA rB : Nybble) (s : State) : Result := moveFrame .g rA rB s

/-- 43_moves.md R189, lines 4 and 5. -/
def execIrmov (rB : Nybble) (v : Word) (s : State) : Result :=
  orAddressFault (s.writeReg rB v) s fun s1 =>
  orAddressFault (s1.writePc (s.pc + 10)) s1 fun s2 => .next s2

/-- 43_moves.md R190, lines 4 to 8. -/
def execRmmov (rA rB : Nybble) (d : Word) (s : State) : Result :=
  orAddressFault (s.readReg rB) s fun base =>
  orAddressFault (s.readReg rA) s fun v =>
  orAddressFault (s.writeWord (effectiveAddress base d) v) s fun s1 =>
  orAddressFault (s1.writePc (s.pc + 10)) s1 fun s2 => .next s2

/-- 43_moves.md R191, lines 4 to 8. -/
def execMrmov (rA rB : Nybble) (d : Word) (s : State) : Result :=
  orAddressFault (s.readReg rB) s fun base =>
  orAddressFault (s.readWord (effectiveAddress base d)) s fun v =>
  orAddressFault (s.writeReg rA v) s fun s1 =>
  orAddressFault (s1.writePc (s.pc + 10)) s1 fun s2 => .next s2

end Sys2Proof.Machine
end

