-- ==== Sys2Proof/Machine/Stack.lean ====
section
/-! DEFINITION. call, ret, push, pop (44_jumps_calls_stack.md R208 to R214). -/

namespace Sys2Proof.Machine

/-- 44_jumps_calls_stack.md R208, lines 2 to 5: the decremented stack pointer is written before the store that may
fail, the return address is `PC + 9`. -/
def execCall (v : Word) (s : State) : Result :=
  let s1 := s.setSp s.pushAddress
  orAddressFault (s1.writeWord s.pushAddress (s.pc + 9)) s1 fun s2 =>
  orAddressFault (s2.writePc v) s2 fun s3 => .next s3

/-- 44_jumps_calls_stack.md R210: the program counter is written before the stack pointer. -/
def execRet (s : State) : Result :=
  orAddressFault (s.readWord s.sp) s fun v =>
  orAddressFault (s.writePc v) s fun s1 => .next (s1.setSp (popAdjust s.sp))

/-- 44_jumps_calls_stack.md R212, lines 3 to 7; `push r4` by R214 and log entry 10. -/
def execPush (rA : Nybble) (s : State) : Result :=
  let s1 := s.setSp s.pushAddress
  orAddressFault ((pushOperandState s s1).readReg rA) s1 fun v =>
  orAddressFault (s1.writeWord s.pushAddress v) s1 fun s2 =>
  orAddressFault (s2.writePc (s.pc + 2)) s2 fun s3 => .next s3

/-- 44_jumps_calls_stack.md R213, lines 3 to 7; `pop r4` by R214 and log entry 10. -/
def execPop (rA : Nybble) (s : State) : Result :=
  orAddressFault (s.readWord s.sp) s fun v =>
  orAddressFault (s.popRegs rA s.sp v) s fun s1 =>
  orAddressFault (s1.writePc (s.pc + 2)) s1 fun s2 => .next s2

end Sys2Proof.Machine
end

