-- ==== Sys2Proof/Machine/System.lean ====
section
/-! DEFINITION. halt, nop, and the header bytes that are no instruction (42_engine_step.md R157 to R159, 30_encoding.md
R93 to R95). -/

namespace Sys2Proof.Machine

/-- 42_engine_step.md R157: `STAT <- HLT`; `PC` is not advanced. -/
def execHalt (s : State) : Result := .next { s with stat := .hlt }

/-- 42_engine_step.md R158: `pc <- PC + 1`. -/
def execNop (s : State) : Result :=
  orAddressFault (s.writePc (s.pc + 1)) s fun s1 => .next s1

/-- 43_moves.md R188, 40_condition_codes.md R113: `raise Fatal(PC, sel)`. -/
def execBadSelectorMove (sel : Nybble) (s : State) : Result := .next (s.take (.fatal sel))

/-- 44_jumps_calls_stack.md R200 line 1, 40_condition_codes.md R113: `raise Fatal(PC, sel)`. -/
def execBadSelectorJump (sel : Nybble) (s : State) : Result := .next (s.take (.fatal sel))

/-- 41_alu.md R131 line 1, 30_encoding.md R94: `raise InstructionFault`, whatever the function nybble. -/
def execIllegalAluFunction (_fn : Nybble) (s : State) : Result := .next (s.take .instructionFault)

/-- 42_engine_step.md R159, 30_encoding.md R93: `raise InstructionFault`, whatever the header byte. -/
def execIllegalBaseOpcode (_header : Byte) (s : State) : Result := .next (s.take .instructionFault)

end Sys2Proof.Machine
end

