-- ==== Sys2Proof/Machine/Dispatch.lean ====
section
/-! DEFINITION. The dispatch of 42_engine_step.md R152: one meaning for each instruction. -/

namespace Sys2Proof.Machine

def exec (i : Instr) (s : State) : Host.Outcome State Fault Refusal :=
  match i with
  | .halt => Sys2Proof.Machine.execHalt s
  | .nop => Sys2Proof.Machine.execNop s
  | .rrmov rA rB => Sys2Proof.Machine.execRrmov rA rB s
  | .cmovle rA rB => Sys2Proof.Machine.execCmovle rA rB s
  | .cmovl rA rB => Sys2Proof.Machine.execCmovl rA rB s
  | .cmove rA rB => Sys2Proof.Machine.execCmove rA rB s
  | .cmovne rA rB => Sys2Proof.Machine.execCmovne rA rB s
  | .cmovge rA rB => Sys2Proof.Machine.execCmovge rA rB s
  | .cmovg rA rB => Sys2Proof.Machine.execCmovg rA rB s
  | .irmov rB v => Sys2Proof.Machine.execIrmov rB v s
  | .rmmov rA rB d => Sys2Proof.Machine.execRmmov rA rB d s
  | .mrmov rA rB d => Sys2Proof.Machine.execMrmov rA rB d s
  | .add rA rB => Sys2Proof.Machine.execAdd rA rB s
  | .sub rA rB => Sys2Proof.Machine.execSub rA rB s
  | .and rA rB => Sys2Proof.Machine.execAnd rA rB s
  | .xor rA rB => Sys2Proof.Machine.execXor rA rB s
  | .jmp v => Sys2Proof.Machine.execJmp v s
  | .jle v => Sys2Proof.Machine.execJle v s
  | .jl v => Sys2Proof.Machine.execJl v s
  | .je v => Sys2Proof.Machine.execJe v s
  | .jne v => Sys2Proof.Machine.execJne v s
  | .jge v => Sys2Proof.Machine.execJge v s
  | .jg v => Sys2Proof.Machine.execJg v s
  | .call v => Sys2Proof.Machine.execCall v s
  | .ret => Sys2Proof.Machine.execRet s
  | .push rA => Sys2Proof.Machine.execPush rA s
  | .pop rA => Sys2Proof.Machine.execPop rA s
  | .badSelectorMove sel => Sys2Proof.Machine.execBadSelectorMove sel s
  | .illegalAluFunction fn => Sys2Proof.Machine.execIllegalAluFunction fn s
  | .badSelectorJump sel => Sys2Proof.Machine.execBadSelectorJump sel s
  | .illegalBaseOpcode header => Sys2Proof.Machine.execIllegalBaseOpcode header s

end Sys2Proof.Machine
end

