-- ==== Sys2Proof/Machine/Step.lean ====
section
/-! DEFINITION. The Execution Engine's `step` (42_engine_step.md R150). -/

namespace Sys2Proof.Machine

/-- The bytes the engine can fetch at the program counter: up to the longest instruction, and none past the end of
memory (30_encoding.md R92). -/
def State.fetchBytes (s : State) : List Byte := s.mem.bytesFrom s.cfg.memSize maxLength s.pc.toNat

/-- 42_engine_step.md R150: a stopped engine does nothing (lines 1 and 2); else the instruction at `PC` is fetched,
decoded and executed. A byte the instruction needs and memory does not have is an address fault before anything is
written (R151, 60_exceptions.md R238; log entry 9). -/
def step (s : State) : Host.Outcome State Fault Refusal :=
  if s.stopped then .next s
  else
    match decode s.fetchBytes with
    | .instr i _ => exec i s
    | .reject _ => .next (s.take .addressFault)

/-- An instruction loaded where the next step fetches it: its bytes, up to the longest instruction, stored at `PC`
(those past the end of memory have no place), and the engine running, which the fetch needs (log entry 23). -/
def State.withFetchWord (s : State) (nbits w : Nat) : State :=
  { s with
    mem := Memory.writeBytes s.cfg.memSize s.mem s.pc.toNat (tableBytes nbits w)
    stat := .run
    fatal := none }

end Sys2Proof.Machine
end

