-- ==== Sys2Proof/Machine/Hazard.lean ====
section
/-! DEFINITION. The Pipeline Hazard Simulator (70_reset_and_hazards.md R270 to R287): its operation `tick`, which the
spec takes from decision D18. It reads `PC`, memory and, under one policy, `CC`; the engine reads nothing of it. -/

namespace Sys2Proof.Machine

/-- The two results of `tick` (70_reset_and_hazards.md R270). -/
inductive TickResult where
  | proceed | stall
deriving DecidableEq, Repr

/-- What `Classify` returns: the source nybbles, the destination record and the control bubbles (R273). -/
structure Classified where
  srcs : List Nybble
  dst : Record
  ctl : Nat
deriving DecidableEq, Repr

/-- The base opcodes whose register byte `Classify` reads (R273). -/
def peeksRegisterByte : BaseOp → Bool
  | .cmov | .irmov | .rmmov | .mrmov | .alu | .push | .pop => true
  | .halt | .nop | .jump | .call | .ret => false

/-- The stack pointer's nybble in a record (R275). -/
def spNybble : Nybble := BitVec.ofNat 4 spReg.val

/-- Sources and destination record of each base opcode (R275). -/
def hazardRegs (cfg : Config) (op : BaseOp) (rA rB : Nybble) : List Nybble × Record :=
  match op with
  | .halt | .nop | .jump => ([], .none)
  | .cmov => ([rA], ⟨rNone, rB⟩)
  | .irmov => ([], ⟨rNone, rB⟩)
  | .rmmov => ([rA, rB], .none)
  | .mrmov => ([rB], ⟨rA, rNone⟩)
  | .alu => ([rA, rB], ⟨rNone, rB⟩)
  | .call | .ret => if cfg.callRetSp then ([spNybble], ⟨rNone, spNybble⟩) else ([], .none)
  | .push => ([rA, spNybble], ⟨rNone, spNybble⟩)
  | .pop => ([spNybble], ⟨rA, spNybble⟩)

/-- Control bubbles of a jump (R277): under `nontrivial_selector` by the selector alone, under `taken_only` by the
condition, evaluated without side effect, a bad selector giving none. -/
def jumpBubbles (cfg : Config) (fn : Nybble) (cc : Byte) : Nat :=
  match cfg.jxxPolicy with
  | .nontrivialSelector => if fn = 0 then 0 else 2
  | .takenOnly =>
    match condOfNybble fn with
    | none | some .always => 0
    | some c => if condHolds c cc then 2 else 0

/-- Control bubbles of each base opcode (R275, R277, R278). -/
def controlBubbles (cfg : Config) (op : BaseOp) (fn : Nybble) (cc : Byte) : Nat :=
  match op with
  | .jump => jumpBubbles cfg fn cc
  | .ret => 3
  | .halt | .nop | .cmov | .irmov | .rmmov | .mrmov | .alu | .call | .push | .pop => 0

/-- One row of R275 for a base opcode, a source nybble `0xE` dropped. -/
def classifyOp (cfg : Config) (op : BaseOp) (fn rA rB : Nybble) (cc : Byte) : Classified where
  srcs := (hazardRegs cfg op rA rB).1.filter (fun n => n != rNone)
  dst := (hazardRegs cfg op rA rB).2
  ctl := controlBubbles cfg op fn cc

/-- `Classify()` (R273): the header byte, and the register byte where the base opcode has one; none where a read is
out of range (R274). -/
def State.classify (s : State) : Option Classified :=
  match s.readByte s.pc with
  | none => none
  | some b0 =>
    match baseOpOfNybble (hi b0) with
    | none => some { srcs := [], dst := .none, ctl := 0 }
    | some op =>
      if peeksRegisterByte op then
        match s.readByte (s.pc + 1) with
        | none => none
        | some rb => some (classifyOp s.cfg op (lo b0) (hi rb) (lo rb) s.cc)
      else some (classifyOp s.cfg op (lo b0) rNone rNone s.cc)

/-- Whether some source nybble is one of a record's nybbles: plain equality, `0xE` excluded (R276). -/
def collides (srcs : List Nybble) (r : Record) : Bool :=
  srcs.any (fun n => n != rNone && (n == r.d1 || n == r.d0))

/-- `DataHazard(srcs)` (R276): `3 - i` for the newest index `i` that collides. -/
def dataHazard (srcs : List Nybble) (w : Window) : Nat :=
  if collides srcs w.w0 then 3
  else if collides srcs w.w1 then 2
  else if collides srcs w.w2 then 1
  else 0

/-- `ShiftIn(win, r)` (R271). -/
def Window.shiftIn (w : Window) (r : Record) : Window := ⟨r, w.w0, w.w1⟩

/-- `Drain()` (R272 lines a to d). -/
def StallSim.drain (m : StallSim) : StallSim :=
  { m with
    countdown := m.countdown - 1
    win := m.win.shiftIn (if m.countdown - 1 = 0 ∧ m.stalling = true then m.pending else .none) }

/-- The bubbles a classified instruction must wait for, `ctl + data` in one pass (R279). -/
def bubbles (c : Classified) (w : Window) : Nat := c.ctl + dataHazard c.srcs w

/-- `tick()` (R272). A peek past the end of memory is the store's address fault and leaves the simulator as it was
(R274). -/
def tick (s : State) : TickResult × State :=
  if s.fatal.isSome then (.stall, s)
  else if 0 < s.sim.countdown then (.stall, { s with sim := s.sim.drain })
  else if s.sim.stalling then (.proceed, { s with sim := { s.sim with stalling := false } })
  else
    match s.classify with
    | none => (.stall, s.take .addressFault)
    | some c =>
      if bubbles c s.sim.win = 0 then
        (.proceed, { s with sim := { s.sim with win := s.sim.win.shiftIn c.dst } })
      else
        (.stall, { s with sim :=
          { s.sim with countdown := bubbles c s.sim.win, stalling := true, pending := c.dst }.drain })

end Sys2Proof.Machine
end

