-- ==== Sys2Proof/Machine/Driver.lean ====
section
/-! DEFINITION. The driver's side of the machine (60_exceptions.md R247): the calls it can make, one function that
carries each out, and the lock-step cycle of engine and hazard simulator (70_reset_and_hazards.md R291). -/

namespace Sys2Proof.Machine

/-- The numbers of the run status (10_state.md R33). -/
def RunStatus.code : RunStatus → Nat
  | .run => 0
  | .hlt => 1
  | .adr => 2
  | .ins => 3

/-- The state a step leaves. The engine's step always has one (42_engine_step.md R156); a refusal, which no instruction
gives, would leave the state as it was. -/
def stepState (s : State) : State :=
  match step s with
  | .next t => t
  | .fault r => nomatch r
  | .refused _ => s

/-- One simulated cycle: `r = tick(); if r == PROCEED then step()` (70_reset_and_hazards.md R291). -/
def cycle (s : State) : TickResult × State :=
  match tick s with
  | (.proceed, t) => (.proceed, stepState t)
  | (.stall, t) => (.stall, t)

/-- What the driver can call: the three transactions, the store's operations (60_exceptions.md R247, 10_state.md R38)
and the inspection of the fatal latch (R247, row `inspect`). `reset` brings `INIT_REGS`, `INIT_CC` and `INIT_MEM` (70_reset_and_hazards.md R260). -/
inductive DriverCall where
  | step
  | tick
  | reset (initRegs : Vector Word 14) (initCc : Byte) (initMem : List Host.Cell)
  | readPc
  | writePc (v : Word)
  | readReg (i : Nybble)
  | writeReg (i : Nybble) (v : Word)
  | readByte (a : Word)
  | writeByte (a : Word) (b : Byte)
  | readWord (a : Word)
  | writeWord (a v : Word)
  | readCc
  | writeCc (b : Byte)
  | readStat
  | writeStat (v : RunStatus)
  /-- Reads `FATAL` and, where it is 1, its captured pair (10_state.md R34). No call writes it but `reset`. -/
  | readFatal
deriving DecidableEq, Repr

/-- What a call returns to the driver. -/
inductive DriverReply where
  | done
  /-- `step`'s fatal report (60_exceptions.md R234, R247), on every step called while `FATAL` is 1 (log entry 31). -/
  | fatal (r : FatalReport)
  | ticked (r : TickResult)
  | word (v : Word)
  | byte (b : Byte)
  | status (v : RunStatus)
  /-- The fatal latch: none where `FATAL` is 0 (log entry 6). -/
  | latch (f : Option FatalReport)
  /-- The store operation failed; `STAT` is now `ADR` (10_state.md R38). -/
  | failed
deriving DecidableEq, Repr

/-- A store operation of the driver's that returns a value. -/
def storeRead {α : Type} (s : State) (access : Option α) (reply : α → DriverReply) : DriverReply × State :=
  match access with
  | none => (.failed, s.take .addressFault)
  | some a => (reply a, s)

/-- A store operation of the driver's that writes. -/
def storeWrite (s : State) (access : Option State) : DriverReply × State :=
  match access with
  | none => (.failed, s.take .addressFault)
  | some t => (.done, t)

/-- One call of the driver's. The store's operations do not look at `STAT` or `FATAL` (00_scope.md R10; log entry
29), and writing `STAT` does not clear `FATAL` (42_engine_step.md R155).

DESIGN CHOICE, log entry 31: a `step` called while `FATAL` is already 1 changes nothing (R150 line 1) and gives the fatal
report again; the spec says of that call only "return", and of any step that it "returns nothing, or the fatal report". -/
def drive (c : DriverCall) (s : State) : DriverReply × State :=
  match c with
  | .step => ((match (stepState s).fatal with | some r => .fatal r | none => .done), stepState s)
  | .tick => (.ticked (tick s).1, (tick s).2)
  | .reset initRegs initCc initMem => (.done, s.resetTransaction initRegs initCc initMem)
  | .readPc => (.word s.pc, s)
  | .writePc v => storeWrite s (s.writePc v)
  | .readReg i => storeRead s (s.readReg i) .word
  | .writeReg i v => storeWrite s (s.writeReg i v)
  | .readByte a => storeRead s (s.readByte a) .byte
  | .writeByte a b => storeWrite s (s.writeByte a b)
  | .readWord a => storeRead s (s.readWord a) .word
  | .writeWord a v => storeWrite s (s.writeWord a v)
  | .readCc => (.byte s.cc, s)
  | .writeCc b => (.done, { s with cc := b })
  | .readStat => (.status s.stat, s)
  | .writeStat v => (.done, { s with stat := v })
  | .readFatal => (.latch s.fatal, s)

end Sys2Proof.Machine
end

