-- ==== Sys2Proof/Machine/Pseudocode.lean ====
section
/-! DEFINITION. The engine as the spec's pseudocode has it, line by line and with the bytes of an instruction fetched
lazily, at the line that needs them (30_encoding.md R92): a second reading of 41_alu.md, 42_engine_step.md, 43_moves.md
and 44_jumps_calls_stack.md that shares only the store's accessors with the model. R98 asks a model that decodes first
to prove that this gives the same faults; an obligation states that `step` and `pseudoStep` agree. Numbers of opcodes,
selectors and functions stand here as the spec's tables write them. -/

namespace Sys2Proof.Machine

/-- A line of pseudocode that can fail (00_scope.md R10, R11). -/
def orStop {α : Type} (access : Option α) (s : State) (next : α → State) : State :=
  match access with
  | none => { s with stat := .adr }
  | some a => next a

/-- `Cond(sel)` (40_condition_codes.md R112); none where it raises `Fatal`. -/
def pseudoCond (sel : Nybble) (cc : Byte) : Option Bool :=
  let zf := cc.getLsbD 2
  let sf := cc.getLsbD 1
  let ovf := cc.getLsbD 0
  let lt := sf ^^ ovf
  match sel.toNat with
  | 0 => some true
  | 1 => some (lt || zf)
  | 2 => some lt
  | 3 => some zf
  | 4 => some (!zf)
  | 5 => some (!lt)
  | 6 => some (!lt && !zf)
  | _ => none

/-- `ALU(fn)` (41_alu.md R131), `Compute` with it (R132 to R135). -/
def pseudoAlu (fn : Nybble) (s : State) : State :=
  if 3 < fn.toNat then { s with stat := .ins }
  else
    orStop (s.readByte (s.pc + 1)) s fun rb =>
    orStop (s.readReg (hi rb)) s fun a =>
    orStop (s.readReg (lo rb)) s fun b =>
    let r := match fn.toNat with | 0 => a + b | 1 => b - a | 2 => a &&& b | _ => a ^^^ b
    let ovf := match fn.toNat with
      | 0 => decide (a.msb = b.msb ∧ r.msb ≠ a.msb)
      | 1 => decide (a.msb ≠ b.msb ∧ r.msb ≠ b.msb)
      | _ => false
    orStop (s.writeReg (lo rb) r) s fun s1 =>
    let s2 := { s1 with cc := BitVec.ofNat 8 (4 * (if r = 0 then 1 else 0) + 2 * r.msb.toNat + ovf.toNat) }
    orStop (s2.writePc (s.pc + 2)) s2 fun s3 => s3

/-- `CMOV(fn)` (43_moves.md R180). -/
def pseudoCmov (fn : Nybble) (s : State) : State :=
  match pseudoCond fn s.cc with
  | none => { s with fatal := some { pc := s.pc, sel := fn } }
  | some c =>
    orStop (s.readByte (s.pc + 1)) s fun rb =>
    orStop (s.writePc (s.pc + 2)) s fun s1 =>
    if c then
      orStop (s1.readReg (hi rb)) s1 fun v =>
      orStop (s1.writeReg (lo rb) v) s1 fun s2 => s2
    else s1

/-- `IRMOV` (43_moves.md R189). -/
def pseudoIrmov (s : State) : State :=
  orStop (s.readByte (s.pc + 1)) s fun rb =>
  orStop (s.readWord (s.pc + 2)) s fun v =>
  orStop (s.writeReg (lo rb) v) s fun s1 =>
  orStop (s1.writePc (s.pc + 10)) s1 fun s2 => s2

/-- `RMMOV` (43_moves.md R190). -/
def pseudoRmmov (s : State) : State :=
  orStop (s.readByte (s.pc + 1)) s fun rb =>
  orStop (s.readWord (s.pc + 2)) s fun d =>
  orStop (s.readReg (lo rb)) s fun base =>
  orStop (s.readReg (hi rb)) s fun v =>
  orStop (s.writeWord (base + d) v) s fun s1 =>
  orStop (s1.writePc (s.pc + 10)) s1 fun s2 => s2

/-- `MRMOV` (43_moves.md R191). -/
def pseudoMrmov (s : State) : State :=
  orStop (s.readByte (s.pc + 1)) s fun rb =>
  orStop (s.readWord (s.pc + 2)) s fun d =>
  orStop (s.readReg (lo rb)) s fun base =>
  orStop (s.readWord (base + d)) s fun v =>
  orStop (s.writeReg (hi rb) v) s fun s1 =>
  orStop (s1.writePc (s.pc + 10)) s1 fun s2 => s2

/-- `JXX(fn)` (44_jumps_calls_stack.md R200): the destination word is read only when the jump is taken. -/
def pseudoJxx (fn : Nybble) (s : State) : State :=
  match pseudoCond fn s.cc with
  | none => { s with fatal := some { pc := s.pc, sel := fn } }
  | some c =>
    if c then
      orStop (s.readWord (s.pc + 1)) s fun dest =>
      orStop (s.writePc dest) s fun s1 => s1
    else orStop (s.writePc (s.pc + 9)) s fun s1 => s1

/-- `CALL` (44_jumps_calls_stack.md R208). -/
def pseudoCall (s : State) : State :=
  orStop (s.readWord (s.pc + 1)) s fun dest =>
  orStop (s.readReg 4) s fun sp0 =>
  orStop (s.writeReg 4 (sp0 - 8)) s fun s1 =>
  orStop (s1.writeWord (sp0 - 8) (s.pc + 9)) s1 fun s2 =>
  orStop (s2.writePc dest) s2 fun s3 => s3

/-- `RET` (44_jumps_calls_stack.md R210). -/
def pseudoRet (s : State) : State :=
  orStop (s.readReg 4) s fun sp =>
  orStop (s.readWord sp) s fun v =>
  orStop (s.writePc v) s fun s1 =>
  orStop (s1.writeReg 4 (sp + 8)) s1 fun s2 => s2

/-- `PUSH` (44_jumps_calls_stack.md R212). -/
def pseudoPush (s : State) : State :=
  orStop (s.readByte (s.pc + 1)) s fun rb =>
  orStop (s.readReg 4) s fun sp0 =>
  orStop (s.writeReg 4 (sp0 - 8)) s fun s1 =>
  orStop (s1.readReg (hi rb)) s1 fun v =>
  orStop (s1.writeWord (sp0 - 8) v) s1 fun s2 =>
  orStop (s2.writePc (s.pc + 2)) s2 fun s3 => s3

/-- `POP` (44_jumps_calls_stack.md R213). -/
def pseudoPop (s : State) : State :=
  orStop (s.readByte (s.pc + 1)) s fun rb =>
  orStop (s.readReg 4) s fun sp =>
  orStop (s.readWord sp) s fun v =>
  orStop (s.writeReg (hi rb) v) s fun s1 =>
  orStop (s1.writeReg 4 (sp + 8)) s1 fun s2 =>
  orStop (s2.writePc (s.pc + 2)) s2 fun s3 => s3

/-- `dispatch(op, fn)` (42_engine_step.md R152). -/
def pseudoDispatch (op fn : Nybble) (s : State) : State :=
  match op.toNat with
  | 0x0 => { s with stat := .hlt }
  | 0x1 => orStop (s.writePc (s.pc + 1)) s fun s1 => s1
  | 0x2 => pseudoCmov fn s
  | 0x3 => pseudoIrmov s
  | 0x4 => pseudoRmmov s
  | 0x5 => pseudoMrmov s
  | 0x6 => pseudoAlu fn s
  | 0x7 => pseudoJxx fn s
  | 0x8 => pseudoCall s
  | 0x9 => pseudoRet s
  | 0xA => pseudoPush s
  | 0xB => pseudoPop s
  | _ => { s with stat := .ins }

/-- `step()` (42_engine_step.md R150). -/
def pseudoStep (s : State) : State :=
  if s.fatal.isSome then s
  else if s.stat ≠ .run then s
  else orStop (s.readByte s.pc) s fun b0 => pseudoDispatch (hi b0) (lo b0) s

end Sys2Proof.Machine
end

