-- ==== Sys2Proof/Safety.lean ====
section
/-! DEFINITION. What counts as a safe run, and the terms in which statements are made: the invariant of the machine,
how a run has ended, the classes of header bytes, what a transition leaves unchanged, and the run of an instruction
under the lock-step driver. -/

namespace Sys2Proof.Machine

/-! The invariant. -/

/-- Invariant of the hazard simulator: 4 at most while filling, and at most 5 left of a stall of 6 (10_state.md R41,
70_reset_and_hazards.md R279). -/
abbrev StallSim.inv (m : StallSim) : Prop := m.countdown ≤ (if m.stalling then 5 else 4)

/-- A captured selector is a bad one (40_condition_codes.md R113). -/
abbrev fatalInv (f : Option FatalReport) : Prop := ∀ r ∈ f, 7 ≤ r.sel.toNat

/-- The invariant of the machine: the parameters in their ranges (00_scope.md R8), `PC < MEM_SIZE` (10_state.md R27),
memory in its canonical form and inside the array (20_memory.md R50), the captured selector bad (R113), the countdown
bounded (R41). -/
abbrev State.Inv (s : State) : Prop :=
  s.cfg.wf ∧ s.pc.toNat < s.cfg.memSize ∧ s.mem.wf ∧ s.mem.below s.cfg.memSize ∧ fatalInv s.fatal ∧ s.sim.inv

/-! How a run ends (60_exceptions.md R248). -/

/-- "A run has ended when `STAT != RUN` or `FATAL = 1`." -/
def State.ended (s : State) : Bool := s.stopped

/-- "It ended well only if `STAT = HLT` and `FATAL = 0`." -/
def State.endedWell (s : State) : Bool := decide (s.stat = .hlt) && s.fatal.isNone

/-! Classes of header bytes (30_encoding.md R93, R94, R95, R99). -/

/-- `C0` to `FF` and `64` to `6F`. -/
abbrev illegalHeader (b : Byte) : Prop := 0xC0 ≤ b.toNat ∨ (0x64 ≤ b.toNat ∧ b.toNat ≤ 0x6F)

/-- `27` to `2F` and `77` to `7F`. -/
abbrev badSelectorHeader (b : Byte) : Prop :=
  (0x27 ≤ b.toNat ∧ b.toNat ≤ 0x2F) ∨ (0x77 ≤ b.toNat ∧ b.toNat ≤ 0x7F)

/-- The bytes a header needs, itself among them (30_encoding.md R82, R92). -/
def headerLength (b : Byte) : Nat :=
  if badSelectorHeader b ∨ illegalHeader b then 1
  else
    match (hi b).toNat with
    | 0x2 | 0x6 | 0xA | 0xB => 2
    | 0x3 | 0x4 | 0x5 => 10
    | 0x7 | 0x8 => 9
    | _ => 1

/-! What a transition leaves unchanged. -/

/-- Every register but the named ones reads as before. -/
def regsSameBut (ds : List Nybble) (s t : State) : Prop := ∀ i : Nybble, i ∉ ds → t.readReg i = s.readReg i

/-- Every byte of memory reads as before. -/
def memSame (s t : State) : Prop := ∀ x : Nat, t.mem.read x = s.mem.read x

/-- Every byte of memory outside the eight from `a` on reads as before. -/
def memSameOutsideWord (a : Word) (s t : State) : Prop :=
  ∀ x : Nat, x < a.toNat ∨ a.toNat + 8 ≤ x → t.mem.read x = s.mem.read x

/-- The parameters, the run status, the fatal latch and the hazard simulator are as before. -/
def controlSame (s t : State) : Prop :=
  t.cfg = s.cfg ∧ t.stat = s.stat ∧ t.fatal = s.fatal ∧ t.sim = s.sim

/-- As `controlSame`, with the run status now `ADR`: the step ended in an address fault. -/
def controlAfterAddressFault (s t : State) : Prop :=
  t.cfg = s.cfg ∧ t.stat = .adr ∧ t.fatal = s.fatal ∧ t.sim = s.sim

/-! The hazard simulator over several ticks, and an instruction under the lock-step driver. -/

/-- The results of `n` ticks, and the state after them. -/
def ticks : Nat → State → List TickResult × State
  | 0, s => ([], s)
  | n + 1, s => ((tick s).1 :: (ticks n (tick s).2).1, (ticks n (tick s).2).2)

/-- The state after `n` lock-step cycles (70_reset_and_hazards.md R291). -/
def cycles : Nat → State → State
  | 0, s => s
  | n + 1, s => cycles n (cycle s).2

/-- The window after an instruction with record `r` has waited for `b` bubbles and issued: `b - 1` sentinels and then
its record (70_reset_and_hazards.md R284). -/
def issuedWindow (w : Window) (r : Record) : Nat → Window
  | 0 | 1 => w.shiftIn r
  | b + 2 => issuedWindow (w.shiftIn .none) r (b + 1)

/-- The hazard simulator once an instruction with record `r` and `b` bubbles has issued. -/
def issuedSim (m : StallSim) (r : Record) (b : Nat) : StallSim where
  win := issuedWindow m.win r b
  countdown := 0
  stalling := false
  pending := if b = 0 then m.pending else r

/-- Ready to make a hazard pass: no fatal error, the pipeline full, no stall under way (70_reset_and_hazards.md R283,
"issuing"). -/
abbrev State.issuing (s : State) : Prop := s.fatal = none ∧ s.sim.countdown = 0 ∧ s.sim.stalling = false

/-- One instruction under the lock-step driver, from a state ready to issue: the bubbles it waits for, and the state
when it has issued and the engine has stepped. None where the simulator's peek fails or the fatal latch is set. -/
def lockStepInstr (s : State) : Option (Nat × State) :=
  match s.fatal, s.classify with
  | none, some c =>
    some (bubbles c s.sim.win, stepState { s with sim := issuedSim s.sim c.dst (bubbles c s.sim.win) })
  | _, _ => none

/-- `n` instructions under the lock-step driver: all their bubbles, and the state after them. -/
def lockStepInstrs : Nat → State → Option (Nat × State)
  | 0, s => some (0, s)
  | n + 1, s =>
    match lockStepInstr s with
    | none => none
    | some (b, t) =>
      match lockStepInstrs n t with
      | none => none
      | some (b', u) => some (b + b', u)

/-! From memory to the instruction, and the shapes of the statements about the three families whose members differ in one
function. -/

/-- From a header byte of a given class a running engine executes `i`, an instruction of `len` bytes, with the two
nybbles of the byte after the header and the word in the last eight bytes, whichever of them its format has
(30_encoding.md R81, R82, R84, R85); where memory ends before the instruction does, it faults with nothing written. -/
def runsFrom (header : Byte → Prop) (len : Nat) (i : Nybble → Nybble → Word → Instr) : Prop :=
  ∀ s : State, s.fatal = none → s.stat = .run → s.pc.toNat < s.cfg.memSize → header (s.mem.read s.pc.toNat) →
    let rb := s.mem.read (s.pc.toNat + 1)
    (s.pc.toNat + len ≤ s.cfg.memSize →
      step s = exec (i (hi rb) (lo rb) (s.mem.word (s.pc.toNat + len - 8))) s) ∧
    (s.cfg.memSize < s.pc.toNat + len → step s = .next { s with stat := .adr })

/-- What an ALU instruction `i` with header `h`, result `r` and overflow `ovf` does (41_alu.md R131): on two registers
it writes the second and the flags, and then advances or, at the end of memory, faults with both written; on a nybble
that names no register it faults with nothing written. -/
def aluInstrDoes (h : Byte) (i : Nybble → Nybble → Instr) (r : Word → Word → Word) (ovf : Word → Word → Prop) : Prop :=
  runsFrom (fun b => b = h) 2 (fun rA rB _ => i rA rB) ∧
  ∀ (rA rB : Nybble) (s : State),
    (∀ a b : Word, s.readReg rA = some a → s.readReg rB = some b →
      ∃ t, exec (i rA rB) s = .next t ∧
        t.readReg rB = some (r a b) ∧ regsSameBut [rB] s t ∧
        (zfFlag t.cc = true ↔ r a b = 0) ∧ (sfFlag t.cc = true ↔ sign (r a b) = true) ∧
        (ofFlag t.cc = true ↔ ovf a b) ∧ t.cc.toNat < 8 ∧ memSame s t ∧
        ((s.pc + 2).toNat < s.cfg.memSize → t.pc = s.pc + 2 ∧ controlSame s t) ∧
        (s.cfg.memSize ≤ (s.pc + 2).toNat → t.pc = s.pc ∧ controlAfterAddressFault s t)) ∧
    (14 ≤ rA.toNat ∨ 14 ≤ rB.toNat → exec (i rA rB) s = .next { s with stat := .adr })

/-- What a conditional move `i` with header `h` and condition `taken` over ZF, SF, OF does (43_moves.md R180): the
program counter first; then, only if the condition holds, the copy, or the fault of a nybble that names no register,
which leaves the program counter advanced. -/
def moveInstrDoes (h : Byte) (i : Nybble → Nybble → Instr) (taken : Bool → Bool → Bool → Bool) : Prop :=
  runsFrom (fun b => b = h) 2 (fun rA rB _ => i rA rB) ∧
  ∀ (rA rB : Nybble) (s : State),
    (s.cfg.memSize ≤ (s.pc + 2).toNat → exec (i rA rB) s = .next { s with stat := .adr }) ∧
    ((s.pc + 2).toNat < s.cfg.memSize →
      (taken (zfFlag s.cc) (sfFlag s.cc) (ofFlag s.cc) = false → exec (i rA rB) s = .next { s with pc := s.pc + 2 }) ∧
      (taken (zfFlag s.cc) (sfFlag s.cc) (ofFlag s.cc) = true →
        (∀ v : Word, s.readReg rA = some v → rB.toNat < 14 →
          ∃ t, exec (i rA rB) s = .next t ∧ t.readReg rB = some v ∧ regsSameBut [rB] s t ∧
            t.pc = s.pc + 2 ∧ t.cc = s.cc ∧ memSame s t ∧ controlSame s t) ∧
        (14 ≤ rA.toNat ∨ 14 ≤ rB.toNat → exec (i rA rB) s = .next { s with pc := s.pc + 2, stat := .adr })))

/-- What a jump `i` with header `h` and condition `taken` over ZF, SF, OF does (44_jumps_calls_stack.md R200): only the
program counter is written, and where the new one lies outside memory nothing is. -/
def jumpInstrDoes (h : Byte) (i : Word → Instr) (taken : Bool → Bool → Bool → Bool) : Prop :=
  runsFrom (fun b => b = h) 9 (fun _ _ v => i v) ∧
  ∀ (v : Word) (s : State),
    let target := if taken (zfFlag s.cc) (sfFlag s.cc) (ofFlag s.cc) then v else s.pc + 9
    (target.toNat < s.cfg.memSize → exec (i v) s = .next { s with pc := target }) ∧
    (s.cfg.memSize ≤ target.toNat → exec (i v) s = .next { s with stat := .adr })

end Sys2Proof.Machine
end

