-- ==== Sys2Proof/Certificates/Slice0/Obligations.lean ====
section
/-! DEFINITION. The statements for the provers. Rules of spec/ that the spec itself marks [derived: …] or
[decision: …] are its own inferences and choices; a statement that rests on one says so and names the sentence or the
log entry. -/

open Sys2Proof Sys2Proof.Machine

/-! Encoding. -/

/-- A few of the words of 95_test_vectors.md V-E1, written out from 30_encoding.md's tables. -/
def Obligations.DecodeReadsWrittenOutWords : Prop :=
  decode [0x26, 0x12] = .instr (.cmovg 1 2) [] ∧
  decode [0x30, 0xE3, 0x88, 0x77, 0x66, 0x55, 0x44, 0x33, 0x22, 0x11] = .instr (.irmov 3 0x1122334455667788) [] ∧
  decode [0x50, 0x12, 0xF8, 0xFF, 0xFF, 0xFF, 0xFF, 0xFF, 0xFF, 0xFF] = .instr (.mrmov 1 2 0xFFFFFFFFFFFFFFF8) [] ∧
  decode [0x61, 0x01] = .instr (.sub 0 1) [] ∧
  decode [0x74, 0x40, 0, 0, 0, 0, 0, 0, 0] = .instr (.jne 0x40) [] ∧
  decode [0xA0, 0x2E] = .instr (.push 2) []

/-- Decode and encode agree: every well-formed instruction, with every operand at every value, comes back from its
canonical bytes, whatever follows them. -/
def Obligations.DecodeInvertsEncode : Prop :=
  ∀ (i : Instr) (rest : List Byte), i.wellFormed = true → decode (encode i ++ rest) = .instr i rest

/-- The decoder answers only well-formed instructions, and takes exactly as many bytes as the instruction is long. -/
def Obligations.DecodeTakesTheLength : Prop :=
  ∀ (bytes rest : List Byte) (i : Instr), decode bytes = .instr i rest →
    i.wellFormed = true ∧ ∃ used : List Byte, bytes = used ++ rest ∧ used.length = i.length

/-- Every header byte decodes to something: bytes are rejected exactly where one the header needs is missing, and an
illegal or fatal header needs none but itself. Rests on the numberings (decisions D1, D2, D3 of the spec). -/
def Obligations.DecodeRejectsOnlyMissingBytes : Prop :=
  (∃ e, decode [] = .reject e) ∧
  ∀ (b0 : Byte) (rest : List Byte),
    (∃ e, decode (b0 :: rest) = .reject e) ↔ rest.length + 1 < headerLength b0

/-- Padding nybbles and unused register nybbles are never looked at, and the canonical bytes have 0 and `0xE` there.
The spec's own choice (decision D12; log entry 16). -/
def Obligations.PaddingIsIgnored : Prop :=
  (∀ (b0 b0' : Byte) (rest : List Byte), hi b0 = hi b0' →
    (hi b0).toNat ∈ [0x0, 0x1, 0x3, 0x4, 0x5, 0x8, 0x9, 0xA, 0xB] → decode (b0 :: rest) = decode (b0' :: rest)) ∧
  (∀ (b0 : Byte) (n n' rB : Nybble) (rest : List Byte), (hi b0).toNat = 0x3 →
    decode (b0 :: nybbles n rB :: rest) = decode (b0 :: nybbles n' rB :: rest)) ∧
  (∀ (b0 : Byte) (rA n n' : Nybble) (rest : List Byte), (hi b0).toNat = 0xA ∨ (hi b0).toNat = 0xB →
    decode (b0 :: nybbles rA n :: rest) = decode (b0 :: nybbles rA n' :: rest)) ∧
  (encode .halt = [0x00] ∧ encode .nop = [0x10] ∧ encode .ret = [0x90] ∧
    (∀ (rB : Nybble) (v : Word), encode (.irmov rB v) = 0x30 :: nybbles 0xE rB :: bytesOfWord v) ∧
    (∀ (rA rB : Nybble) (d : Word), encode (.rmmov rA rB d) = 0x40 :: nybbles rA rB :: bytesOfWord d) ∧
    (∀ (rA rB : Nybble) (d : Word), encode (.mrmov rA rB d) = 0x50 :: nybbles rA rB :: bytesOfWord d) ∧
    (∀ v : Word, encode (.call v) = 0x80 :: bytesOfWord v) ∧
    (∀ rA : Nybble, encode (.push rA) = [0xA0, nybbles rA 0xE]) ∧
    (∀ rA : Nybble, encode (.pop rA) = [0xB0, nybbles rA 0xE]))

/-! The engine's step. -/

/-- A running engine whose bytes at `PC` decode to an instruction executes it: the step is `exec`, and adds nothing
around it. -/
def Obligations.StepRunsTheDecodedInstruction : Prop :=
  ∀ (s : State) (i : Instr) (rest : List Byte), s.fatal = none → s.stat = .run →
    decode s.fetchBytes = .instr i rest → step s = exec i s

/-- A running engine with an instruction's bytes in memory at `PC`, inside memory, executes it, whatever bytes stand
after it. -/
def Obligations.StepRunsTheBytesAtPc : Prop :=
  ∀ (s : State) (i : Instr), s.fatal = none → s.stat = .run → i.wellFormed = true →
    s.pc.toNat + (encode i).length ≤ s.cfg.memSize →
    (∀ (k : Nat) (b : Byte), (encode i)[k]? = some b → s.mem.read (s.pc.toNat + k) = b) →
    step s = exec i s

/-- A byte the header needs and memory does not have is an address fault with nothing written; so is a header outside
memory. -/
def Obligations.MissingInstructionByteFaults : Prop :=
  ∀ s : State, s.fatal = none → s.stat = .run →
    (s.cfg.memSize ≤ s.pc.toNat → step s = .next { s with stat := .adr }) ∧
    (s.cfg.memSize < s.pc.toNat + headerLength (s.mem.read s.pc.toNat) → step s = .next { s with stat := .adr })

/-- Once `STAT` is not `RUN`, or `FATAL` is set, a step changes nothing, and so do any number of them; a reset runs the
engine again. The latch is the spec's own (decision D16; log entry 6), and so is what a reset sets (R260, decision D17;
log entry 24). -/
def Obligations.StoppedEngineDoesNothing : Prop :=
  ∀ s : State, s.stat ≠ .run ∨ s.fatal.isSome = true →
    step s = .next s ∧ (∀ n : Nat, Sys2Proof.core.run n s = .next s) ∧
      ∀ (r : Vector Word 14) (c : Byte) (image : List Host.Cell), (drive (.reset r c image) s).2.stopped = false

/-- From any state a step yields a next state: the model neither faults nor refuses. -/
def Obligations.StepAlwaysAnswersNext : Prop :=
  ∀ s : State, ∃ t, step s = .next t

/-- The model decodes a whole instruction and then executes it; the spec's pseudocode fetches each byte at the line
that needs it. The two agree in every state of the invariant, faults and partial effects included, under the spec's own
lines for push and pop of the stack pointer. -/
def Obligations.StepAgreesWithThePseudocode : Prop :=
  ∀ s : State, s.Inv → s.cfg.spOperand = .adjusted → step s = .next (pseudoStep s)

/-- Every step keeps the invariant of the machine: `PC` inside memory, memory in canonical form and inside the array,
the captured selector a bad one, the countdown bounded, the parameters in their ranges. That memory has a canonical form
is the model's choice (log entry 5), the bound on `PC` the spec's decision D15 (log entry 18). -/
def Obligations.StepKeepsTheInvariant : Prop :=
  ∀ s t : State, s.Inv → step s = .next t → t.Inv

/-- The state after reset meets the invariant. Its parameters, registers, flags and memory are the model's choice (log
entries 2 to 5). -/
def Obligations.ResetMeetsTheInvariant : Prop :=
  State.reset.Inv ∧ State.reset.stat = .run ∧ State.reset.fatal = none ∧ State.reset.sim = StallSim.start

/-- How a step from `RUN` can end, by the header byte at `PC` alone: `HLT` exactly on a halt, `INS` exactly on an
illegal header, `FATAL` exactly on a bad selector; and a run that ends well ends on a halt. -/
def Obligations.StepEndsAsTheHeaderSays : Prop :=
  ∀ s t : State, s.fatal = none → s.stat = .run → s.pc.toNat < s.cfg.memSize → step s = .next t →
    (t.stat = .hlt ↔ hi (s.mem.read s.pc.toNat) = 0) ∧
    (t.stat = .ins ↔ illegalHeader (s.mem.read s.pc.toNat)) ∧
    (t.fatal.isSome = true ↔ badSelectorHeader (s.mem.read s.pc.toNat)) ∧
    (t.endedWell = true ↔ hi (s.mem.read s.pc.toNat) = 0)

/-- Every ALU instruction on two registers writes the whole condition-code byte, whatever it held: ZF from the 64 bits
of the result, SF from its bit 63, the upper five bits 0; and no other instruction, fault or fatal error changes it. That
the flags are written before the fault of a `PC` at the end of memory is the order of the lines (decision D13; log entry
20), the upper bits 0 decision D32 (log entry 15), the header numbers decision D3 (log entry 13). -/
def Obligations.OnlyAluWritesTheFlags : Prop :=
  (∀ (f : AluFn) (rA rB : Nybble) (s : State), rA.toNat < 14 → rB.toNat < 14 →
    ∃ (t : State) (r : Word), exec (Instr.ofAlu f rA rB) s = .next t ∧ t.readReg rB = some r ∧
      (zfFlag t.cc = true ↔ r = 0) ∧ (sfFlag t.cc = true ↔ r.getLsbD 63 = true) ∧
      (∀ k : Nat, 3 ≤ k → t.cc.getLsbD k = false) ∧
      ∀ c : Byte, ∃ t', exec (Instr.ofAlu f rA rB) { s with cc := c } = .next t' ∧ t'.cc = t.cc) ∧
  ∀ s t : State, step s = .next t → t.cc ≠ s.cc →
    s.pc.toNat < s.cfg.memSize ∧ 0x60 ≤ (s.mem.read s.pc.toNat).toNat ∧ (s.mem.read s.pc.toNat).toNat ≤ 0x63

/-- Only a register-to-memory move, a call and a push change memory. -/
def Obligations.OnlyStoresChangeMemory : Prop :=
  ∀ s t : State, step s = .next t → t.mem ≠ s.mem →
    s.pc.toNat < s.cfg.memSize ∧ (hi (s.mem.read s.pc.toNat)).toNat ∈ [0x4, 0x8, 0xA]

/-- No step changes the parameters or the hazard simulator, and what it does to everything else does not depend on the
simulator's state. -/
def Obligations.StepIgnoresTheHazardSimulator : Prop :=
  ∀ (s t : State) (m : StallSim), step s = .next t →
    t.cfg = s.cfg ∧ t.sim = s.sim ∧ step { s with sim := m } = .next { t with sim := m }

/-! halt, nop, and the headers that are no instruction. -/

/-- halt: `STAT <- HLT` and nothing else, from any header byte whose high nybble is 0, whatever follows it. -/
def Obligations.HaltSetsTheStatusOnly : Prop :=
  ∀ s : State, exec .halt s = .next { s with stat := .hlt } ∧
    (s.fatal = none → s.stat = .run → s.pc.toNat < s.cfg.memSize → hi (s.mem.read s.pc.toNat) = 0 →
      step s = .next { s with stat := .hlt })

/-- nop: `pc <- PC + 1` and nothing else, or the address fault of the last byte of memory; from any header byte whose
high nybble is 1. -/
def Obligations.NopAdvancesByOne : Prop :=
  ∀ s : State,
    ((s.pc + 1).toNat < s.cfg.memSize → exec .nop s = .next { s with pc := s.pc + 1 }) ∧
    (s.cfg.memSize ≤ (s.pc + 1).toNat → exec .nop s = .next { s with stat := .adr }) ∧
    (s.fatal = none → s.stat = .run → s.pc.toNat < s.cfg.memSize → hi (s.mem.read s.pc.toNat) = 1 →
      step s = exec .nop s)

/-- A header byte with high nybble `0xC` to `0xF`: `STAT <- INS`, nothing else changed, whatever stands after it. -/
def Obligations.IllegalBaseOpcodeFaults : Prop :=
  ∀ s : State, (∀ header : Byte, exec (.illegalBaseOpcode header) s = .next { s with stat := .ins }) ∧
    (s.fatal = none → s.stat = .run → s.pc.toNat < s.cfg.memSize → 0xC ≤ (hi (s.mem.read s.pc.toNat)).toNat →
      step s = .next { s with stat := .ins })

/-- A header byte `0x64` to `0x6F`: `STAT <- INS`, nothing else changed, and no byte after it read. The spec's own
choice (decision D3; log entry 13). -/
def Obligations.IllegalAluFunctionFaults : Prop :=
  ∀ s : State, (∀ fn : Nybble, exec (.illegalAluFunction fn) s = .next { s with stat := .ins }) ∧
    (s.fatal = none → s.stat = .run → s.pc.toNat < s.cfg.memSize →
      0x64 ≤ (s.mem.read s.pc.toNat).toNat → (s.mem.read s.pc.toNat).toNat ≤ 0x6F →
      step s = .next { s with stat := .ins })

/-- A header byte `0x27` to `0x2F` or `0x77` to `0x7F`: `FATAL <- 1` with the instruction's `PC` and its selector,
nothing else changed, `STAT` with it, and no byte after it read. How hardware renders the error is the spec's own
choice (decision D16; log entry 6). -/
def Obligations.BadSelectorIsFatal : Prop :=
  ∀ s : State,
    (∀ sel : Nybble, exec (.badSelectorMove sel) s = .next { s with fatal := some { pc := s.pc, sel := sel } }) ∧
    (∀ sel : Nybble, exec (.badSelectorJump sel) s = .next { s with fatal := some { pc := s.pc, sel := sel } }) ∧
    (s.fatal = none → s.stat = .run → s.pc.toNat < s.cfg.memSize → badSelectorHeader (s.mem.read s.pc.toNat) →
      step s = .next { s with fatal := some { pc := s.pc, sel := lo (s.mem.read s.pc.toNat) } })

/-! The ALU. -/

/-- add: `x[rB] <- x[rB] + x[rA]` modulo 2^64, the flags, and every fault of the frame. What a fault leaves rests on the
order of the frame's lines, which is the spec's own (decision D13; log entry 20), here and in the other three. -/
def Obligations.AddWritesSumAndFlags : Prop :=
  aluInstrDoes 0x60 .add (fun a b => a + b) (fun a b => sign a = sign b ∧ sign (a + b) ≠ sign a)

/-- sub: `x[rB] <- x[rB] - x[rA]` modulo 2^64, the flags, and every fault of the frame. -/
def Obligations.SubWritesDifferenceAndFlags : Prop :=
  aluInstrDoes 0x61 .sub (fun a b => b - a) (fun a b => sign a ≠ sign b ∧ sign (b - a) ≠ sign b)

/-- and: the bitwise conjunction, OF cleared, and every fault of the frame. -/
def Obligations.AndWritesConjunctionAndFlags : Prop :=
  aluInstrDoes 0x62 .and (fun a b => a &&& b) (fun _ _ => False)

/-- xor: the bitwise exclusive or, OF cleared, and every fault of the frame. -/
def Obligations.XorWritesExclusiveOrAndFlags : Prop :=
  aluInstrDoes 0x63 .xor (fun a b => a ^^^ b) (fun _ _ => False)

/-- The overflow flag add and sub leave is exact: set iff the signed result lies outside the word; and SF xor OF is the
sign of the true result. The spec's inference (41_alu.md, "OF is standard two's-complement overflow detection"). -/
def Obligations.OverflowFlagIsExact : Prop :=
  ∀ (rA rB : Nybble) (s t : State) (a b : Word), s.readReg rA = some a → s.readReg rB = some b →
    (exec (.add rA rB) s = .next t →
      (ofFlag t.cc = true ↔ a.toInt + b.toInt < -2 ^ 63 ∨ 2 ^ 63 ≤ a.toInt + b.toInt) ∧
      ((sfFlag t.cc ^^ ofFlag t.cc) = true ↔ a.toInt + b.toInt < 0)) ∧
    (exec (.sub rA rB) s = .next t →
      (ofFlag t.cc = true ↔ b.toInt - a.toInt < -2 ^ 63 ∨ 2 ^ 63 ≤ b.toInt - a.toInt) ∧
      ((sfFlag t.cc ^^ ofFlag t.cc) = true ↔ b.toInt - a.toInt < 0))

/-- After sub, the six conditions compare the old `x[rB]` with `x[rA]` as signed integers, overflow included. The
spec's inference (40_condition_codes.md, "The meaning of the conditions"). -/
def Obligations.ConditionsAfterSubCompareSigned : Prop :=
  ∀ (rA rB : Nybble) (s t : State) (a b : Word), s.readReg rA = some a → s.readReg rB = some b →
    exec (.sub rA rB) s = .next t →
      (condHolds .le t.cc = true ↔ b.toInt ≤ a.toInt) ∧
      (condHolds .l t.cc = true ↔ b.toInt < a.toInt) ∧
      (condHolds .e t.cc = true ↔ b.toInt = a.toInt) ∧
      (condHolds .ne t.cc = true ↔ b.toInt ≠ a.toInt) ∧
      (condHolds .ge t.cc = true ↔ b.toInt ≥ a.toInt) ∧
      (condHolds .g t.cc = true ↔ b.toInt > a.toInt)

/-- An ALU instruction on two registers leaves one of the six bytes `0x00` to `0x05` in `CC`, whatever it held, the two
logical ones only `0x00`, `0x02`, `0x04`; and in any state each of the six is left by add on some two words. The spec's
inference (41_alu.md, "The ALU cannot produce every CC value"); the places of the bits are decision D7, the upper bits
0 decision D32 (log entry 15). -/
def Obligations.AluFlagBytesAreTheReachableOnes : Prop :=
  (∀ (f : AluFn) (rA rB : Nybble) (s : State), rA.toNat < 14 → rB.toNat < 14 →
    ∃ t, exec (Instr.ofAlu f rA rB) s = .next t ∧ t.cc.toNat ≤ 5 ∧
      (f = .and ∨ f = .xor → t.cc.toNat ∈ [0, 2, 4])) ∧
  (∀ (s : State) (rA rB : Nybble) (n : Nat), rA.toNat < 14 → rB.toNat < 14 → rA ≠ rB → n ≤ 5 →
    ∃ (a b : Word) (sa sab t : State), s.writeReg rA a = some sa ∧ sa.writeReg rB b = some sab ∧
      exec (.add rA rB) sab = .next t ∧ t.cc.toNat = n)

/-! The moves. -/

/-- rrmov and the six conditional moves, on every operand, flag and fault. That a nybble that names no register does not
fault where the condition is false is the spec's own choice (decision D28; log entry 17), that it does where it holds as
well (decision D11; log entry 18). -/
def Obligations.ConditionalMovesCopyWhenTheConditionHolds : Prop :=
  moveInstrDoes 0x20 .rrmov (fun _ _ _ => true) ∧
  moveInstrDoes 0x21 .cmovle (fun zf sf ovf => (sf ^^ ovf) || zf) ∧
  moveInstrDoes 0x22 .cmovl (fun _ sf ovf => sf ^^ ovf) ∧
  moveInstrDoes 0x23 .cmove (fun zf _ _ => zf) ∧
  moveInstrDoes 0x24 .cmovne (fun zf _ _ => !zf) ∧
  moveInstrDoes 0x25 .cmovge (fun _ sf ovf => !(sf ^^ ovf)) ∧
  moveInstrDoes 0x26 .cmovg (fun zf sf ovf => !(sf ^^ ovf) && !zf)

/-- irmov: `x[rB] <- V`, `PC + 10`; at the end of memory the register is written and the step faults; a nybble that
names no register faults with nothing written. The order of the lines is the spec's own (decision D13; log entry 20),
here and in rmmov, mrmov, ret, push and pop. -/
def Obligations.IrmovWritesTheImmediate : Prop :=
  runsFrom (fun b => hi b = 3) 10 (fun _ rB v => .irmov rB v) ∧
  ∀ (rB : Nybble) (v : Word) (s : State),
    (rB.toNat < 14 →
      ∃ t, exec (.irmov rB v) s = .next t ∧ t.readReg rB = some v ∧ regsSameBut [rB] s t ∧
        t.cc = s.cc ∧ memSame s t ∧
        ((s.pc + 10).toNat < s.cfg.memSize → t.pc = s.pc + 10 ∧ controlSame s t) ∧
        (s.cfg.memSize ≤ (s.pc + 10).toNat → t.pc = s.pc ∧ controlAfterAddressFault s t)) ∧
    (14 ≤ rB.toNat → exec (.irmov rB v) s = .next { s with stat := .adr })

/-- rmmov: the word `x[rA]` at `(x[rB] + D) mod 2^64`, all eight bytes or none, `PC + 10`; at the end of memory the
word is written and the step faults. -/
def Obligations.RmmovStoresTheWord : Prop :=
  runsFrom (fun b => hi b = 4) 10 .rmmov ∧
  ∀ (rA rB : Nybble) (d : Word) (s : State), s.mem.wf →
    (∀ base v : Word, s.readReg rB = some base → s.readReg rA = some v →
      effectiveAddress base d = base + d ∧
      ((effectiveAddress base d).toNat + 8 ≤ s.cfg.memSize →
        ∃ t, exec (.rmmov rA rB d) s = .next t ∧
          t.readWord (effectiveAddress base d) = some v ∧ memSameOutsideWord (effectiveAddress base d) s t ∧
          t.regs = s.regs ∧ t.cc = s.cc ∧
          ((s.pc + 10).toNat < s.cfg.memSize → t.pc = s.pc + 10 ∧ controlSame s t) ∧
          (s.cfg.memSize ≤ (s.pc + 10).toNat → t.pc = s.pc ∧ controlAfterAddressFault s t)) ∧
      (s.cfg.memSize < (effectiveAddress base d).toNat + 8 →
        exec (.rmmov rA rB d) s = .next { s with stat := .adr })) ∧
    (14 ≤ rA.toNat ∨ 14 ≤ rB.toNat → exec (.rmmov rA rB d) s = .next { s with stat := .adr })

/-- mrmov: `x[rA]` gets the word at `(x[rB] + D) mod 2^64`, `PC + 10`; at the end of memory the register is written and
the step faults. -/
def Obligations.MrmovLoadsTheWord : Prop :=
  runsFrom (fun b => hi b = 5) 10 .mrmov ∧
  ∀ (rA rB : Nybble) (d : Word) (s : State),
    (∀ base v : Word, s.readReg rB = some base → rA.toNat < 14 → s.readWord (base + d) = some v →
      ∃ t, exec (.mrmov rA rB d) s = .next t ∧ t.readReg rA = some v ∧ regsSameBut [rA] s t ∧
        t.cc = s.cc ∧ memSame s t ∧
        ((s.pc + 10).toNat < s.cfg.memSize → t.pc = s.pc + 10 ∧ controlSame s t) ∧
        (s.cfg.memSize ≤ (s.pc + 10).toNat → t.pc = s.pc ∧ controlAfterAddressFault s t)) ∧
    (∀ base : Word, s.readReg rB = some base → s.cfg.memSize < (base + d).toNat + 8 →
      exec (.mrmov rA rB d) s = .next { s with stat := .adr }) ∧
    (14 ≤ rA.toNat ∨ 14 ≤ rB.toNat → exec (.mrmov rA rB d) s = .next { s with stat := .adr })

/-! Jumps, call, return, push, pop. -/

/-- jmp and the six conditional jumps, on every destination and flag. -/
def Obligations.JumpsGoWhereTheConditionSays : Prop :=
  jumpInstrDoes 0x70 .jmp (fun _ _ _ => true) ∧
  jumpInstrDoes 0x71 .jle (fun zf sf ovf => (sf ^^ ovf) || zf) ∧
  jumpInstrDoes 0x72 .jl (fun _ sf ovf => sf ^^ ovf) ∧
  jumpInstrDoes 0x73 .je (fun zf _ _ => zf) ∧
  jumpInstrDoes 0x74 .jne (fun zf _ _ => !zf) ∧
  jumpInstrDoes 0x75 .jge (fun _ sf ovf => !(sf ^^ ovf)) ∧
  jumpInstrDoes 0x76 .jg (fun zf sf ovf => !(sf ^^ ovf) && !zf)

/-- call: `x[SP]` decremented by 8, the return address `PC + 9` stored there, `PC` the called address; a store outside
memory faults with the stack pointer decremented, a called address outside memory with the store made as well. -/
def Obligations.CallPushesTheReturnAddress : Prop :=
  runsFrom (fun b => hi b = 8) 9 (fun _ _ v => .call v) ∧
  ∀ (v : Word) (s : State), s.mem.wf →
    s.pushAddress = s.sp - 8 ∧
    (s.pushAddress.toNat + 8 ≤ s.cfg.memSize →
      ∃ t, exec (.call v) s = .next t ∧
        t.readReg 4 = some s.pushAddress ∧ regsSameBut [4] s t ∧
        t.readWord s.pushAddress = some (s.pc + 9) ∧ memSameOutsideWord s.pushAddress s t ∧ t.cc = s.cc ∧
        (v.toNat < s.cfg.memSize → t.pc = v ∧ controlSame s t) ∧
        (s.cfg.memSize ≤ v.toNat → t.pc = s.pc ∧ controlAfterAddressFault s t)) ∧
    (s.cfg.memSize < s.pushAddress.toNat + 8 →
      ∃ t, exec (.call v) s = .next t ∧
        t.readReg 4 = some s.pushAddress ∧ regsSameBut [4] s t ∧ memSame s t ∧ t.cc = s.cc ∧ t.pc = s.pc ∧
        controlAfterAddressFault s t)

/-- ret: `PC` gets the word at `x[SP]`, then `x[SP]` is incremented by 8; a stack word outside memory, or one that is no
address inside it, faults with nothing written. -/
def Obligations.RetPopsTheProgramCounter : Prop :=
  runsFrom (fun b => hi b = 9) 1 (fun _ _ _ => .ret) ∧
  ∀ s : State,
    (∀ v : Word, s.readWord s.sp = some v →
      (v.toNat < s.cfg.memSize →
        ∃ t, exec .ret s = .next t ∧ t.pc = v ∧ t.readReg 4 = some (s.sp + 8) ∧ regsSameBut [4] s t ∧
          t.cc = s.cc ∧ memSame s t ∧ controlSame s t) ∧
      (s.cfg.memSize ≤ v.toNat → exec .ret s = .next { s with stat := .adr })) ∧
    (s.cfg.memSize < s.sp.toNat + 8 → exec .ret s = .next { s with stat := .adr })

/-- A call and the return right after it, neither of them faulting, leave `PC` at the instruction after the call and
the stack pointer at its value before it, with the return address still in memory. -/
def Obligations.CallThenRetComesBack : Prop :=
  ∀ (v : Word) (s t u : State), s.mem.wf → s.stat = .run →
    exec (.call v) s = .next t → t.stat = .run → exec .ret t = .next u → u.stat = .run →
      u.pc = s.pc + 9 ∧ u.sp = s.sp ∧ u.readWord (s.sp - 8) = some (s.pc + 9)

/-- push: `x[SP]` decremented by 8, then the register's word stored there, `PC + 2`. `push r4` stores the decremented
pointer (the spec's lines; under another value of the parameter of log entry 10 see `PushPopOfTheStackPointer`). A
nybble that names no register, or a store outside memory, faults with the stack pointer decremented. -/
def Obligations.PushStoresTheRegister : Prop :=
  runsFrom (fun b => hi b = 0xA) 2 (fun rA _ _ => .push rA) ∧
  ∀ (rA : Nybble) (s : State), s.mem.wf → (rA = 4 → s.cfg.spOperand = .adjusted) →
    s.pushAddress = s.sp - 8 ∧
    (∀ v : Word, (if rA = 4 then some (s.sp - 8) else s.readReg rA) = some v →
      s.pushAddress.toNat + 8 ≤ s.cfg.memSize →
        ∃ t, exec (.push rA) s = .next t ∧
          t.readReg 4 = some s.pushAddress ∧ regsSameBut [4] s t ∧
          t.readWord s.pushAddress = some v ∧ memSameOutsideWord s.pushAddress s t ∧ t.cc = s.cc ∧
          ((s.pc + 2).toNat < s.cfg.memSize → t.pc = s.pc + 2 ∧ controlSame s t) ∧
          (s.cfg.memSize ≤ (s.pc + 2).toNat → t.pc = s.pc ∧ controlAfterAddressFault s t)) ∧
    (14 ≤ rA.toNat ∨ s.cfg.memSize < s.pushAddress.toNat + 8 →
      ∃ t, exec (.push rA) s = .next t ∧
        t.readReg 4 = some s.pushAddress ∧ regsSameBut [4] s t ∧ memSame s t ∧ t.cc = s.cc ∧ t.pc = s.pc ∧
        controlAfterAddressFault s t)

/-- pop: the register gets the word at `x[SP]`, then `x[SP]` is the old pointer + 8, `PC + 2`. `pop r4` leaves the old
pointer + 8 (the spec's lines; under another value of the parameter of log entry 10 see `PushPopOfTheStackPointer`). A
stack word outside memory, or a nybble that names no register, faults with nothing written. -/
def Obligations.PopLoadsTheRegister : Prop :=
  runsFrom (fun b => hi b = 0xB) 2 (fun rA _ _ => .pop rA) ∧
  ∀ (rA : Nybble) (s : State), (rA = 4 → s.cfg.spOperand = .adjusted) →
    (∀ v : Word, rA.toNat < 14 → s.readWord s.sp = some v →
      ∃ t, exec (.pop rA) s = .next t ∧
        (rA ≠ 4 → t.readReg rA = some v) ∧ t.readReg 4 = some (s.sp + 8) ∧ regsSameBut [rA, 4] s t ∧
        t.cc = s.cc ∧ memSame s t ∧
        ((s.pc + 2).toNat < s.cfg.memSize → t.pc = s.pc + 2 ∧ controlSame s t) ∧
        (s.cfg.memSize ≤ (s.pc + 2).toNat → t.pc = s.pc ∧ controlAfterAddressFault s t)) ∧
    (14 ≤ rA.toNat ∨ s.cfg.memSize < s.sp.toNat + 8 → exec (.pop rA) s = .next { s with stat := .adr })

/-- `push r4` and `pop r4` under each of the three candidate behaviours (93_implementation_defined.md U4): what is
stored, what the stack pointer is left at, and every fault: a stack word outside memory, and the end of memory reached
with everything written. A parameter of the model (log entry 10); the order of the lines is decision D13 (log entry
20). -/
def Obligations.PushPopOfTheStackPointer : Prop :=
  ∀ s : State, s.mem.wf →
    s.pushAddress = s.sp - 8 ∧
    (s.pushAddress.toNat + 8 ≤ s.cfg.memSize →
      ∃ t, exec (.push 4) s = .next t ∧ t.sp = s.pushAddress ∧ regsSameBut [4] s t ∧
        t.readWord s.pushAddress =
          some (match s.cfg.spOperand with | .adjusted => s.sp - 8 | .original => s.sp | .reread => s.sp - 8) ∧
        memSameOutsideWord s.pushAddress s t ∧ t.cc = s.cc ∧
        ((s.pc + 2).toNat < s.cfg.memSize → t.pc = s.pc + 2 ∧ controlSame s t) ∧
        (s.cfg.memSize ≤ (s.pc + 2).toNat → t.pc = s.pc ∧ controlAfterAddressFault s t)) ∧
    (s.cfg.memSize < s.pushAddress.toNat + 8 →
      ∃ t, exec (.push 4) s = .next t ∧ t.sp = s.pushAddress ∧ regsSameBut [4] s t ∧ memSame s t ∧ t.cc = s.cc ∧
        t.pc = s.pc ∧ controlAfterAddressFault s t) ∧
    (∀ v : Word, s.readWord s.sp = some v →
      ∃ t, exec (.pop 4) s = .next t ∧
        t.sp = (match s.cfg.spOperand with | .adjusted => s.sp + 8 | .original => v | .reread => v + 8) ∧
        regsSameBut [4] s t ∧ memSame s t ∧ t.cc = s.cc ∧
        ((s.pc + 2).toNat < s.cfg.memSize → t.pc = s.pc + 2 ∧ controlSame s t) ∧
        (s.cfg.memSize ≤ (s.pc + 2).toNat → t.pc = s.pc ∧ controlAfterAddressFault s t)) ∧
    (s.cfg.memSize < s.sp.toNat + 8 → exec (.pop 4) s = .next { s with stat := .adr })

/-! Memory. -/

/-- The store's word write: refused exactly where one of the eight bytes lies outside memory; else the word reads back,
byte `i` of memory is `v[8i+7:8i]`, every other byte is as before, and memory keeps its canonical form. Byte order and
range check are the spec's own choices (decisions D5, D6; log entries 12 and 19). -/
def Obligations.WordWriteReadsBackLittleEndian : Prop :=
  ∀ (s : State) (a v : Word), s.mem.wf → s.mem.below s.cfg.memSize →
    (s.writeWord a v = none ↔ s.cfg.memSize < a.toNat + 8) ∧
    (∀ t : State, s.writeWord a v = some t →
      t.readWord a = some v ∧
      (∀ i : Nat, i < 8 → t.mem.read (a.toNat + i) = v.extractLsb' (8 * i) 8) ∧
      memSameOutsideWord a s t ∧ t.mem.wf ∧ t.mem.below t.cfg.memSize ∧ t.regs = s.regs ∧ t.pc = s.pc)

/-- Memories in canonical form are equal as data exactly when every address reads the same in both. The form is the
model's (log entry 5). -/
def Obligations.EqualReadsAreEqualMemories : Prop :=
  ∀ m m' : Memory, m.wf → m'.wf → ((∀ a : Nat, m.read a = m'.read a) ↔ m = m')

/-! The hazard simulator. -/

/-- "The first 4 simulated cycles always stall" whatever memory holds, and the fifth makes the first hazard pass: with
a nop at `PC` it proceeds. What the four shift into the window is the spec's own algorithm (R272, decision D18; log entry
21). -/
def Obligations.StartupStallsFourTicks : Prop :=
  ∀ s : State, s.fatal = none → s.sim.countdown = 4 → s.sim.stalling = false →
    (ticks 4 s).1 = [.stall, .stall, .stall, .stall] ∧
    (ticks 4 s).2 = { s with sim := { s.sim with countdown := 0, win := ⟨.none, .none, .none⟩ } } ∧
    (s.pc.toNat < s.cfg.memSize → hi (s.mem.read s.pc.toNat) = 1 → (ticks 5 s).1[4]? = some .proceed)

/-- While the countdown runs, a tick stalls and shifts the window once: a sentinel in every bubble but the last of a
hazard stall, which shifts in the stalled instruction's record; the tick after that proceeds, with no hazard pass and no
shift. -/
def Obligations.DrainShiftsSentinelsAndThenTheRecord : Prop :=
  ∀ s : State, s.fatal = none →
    (0 < s.sim.countdown → (tick s).1 = .stall ∧ (tick s).2 = { s with sim := { s.sim with
        countdown := s.sim.countdown - 1
        win := ⟨if s.sim.countdown = 1 ∧ s.sim.stalling = true then s.sim.pending else ⟨0xE, 0xE⟩,
          s.sim.win.w0, s.sim.win.w1⟩ } }) ∧
    (s.sim.countdown = 0 → s.sim.stalling = true →
      tick s = (.proceed, { s with sim := { s.sim with stalling := false } }))

/-- The phases of the simulator. Filling, it stays filling until the last of the startup ticks and is then issuing;
issuing, it is stalling after a tick exactly when the hazard pass finds bubbles; stalling, it stays so until the
countdown is 0, and the tick after that proceeds and is issuing. No tick leads from issuing or stalling to filling. -/
def Obligations.SimulatorPhasesFollowTheTransitions : Prop :=
  ∀ s : State, s.fatal = none →
    (0 < s.sim.countdown → s.sim.stalling = false →
      (tick s).2.sim.stalling = false ∧ ((tick s).2.sim.countdown = 0 ↔ s.sim.countdown = 1)) ∧
    (s.issuing → ((tick s).2.sim.stalling = true ↔ ∃ c, s.classify = some c ∧ 0 < bubbles c s.sim.win) ∧
      ((tick s).2.sim.stalling = true ∨ (tick s).2.sim.countdown = 0)) ∧
    (0 < s.sim.countdown → s.sim.stalling = true → (tick s).2.sim.stalling = true) ∧
    (s.sim.countdown = 0 → s.sim.stalling = true → (tick s).1 = .proceed ∧ (tick s).2.issuing)

/-- The one hazard pass on the instruction at `PC` decides its whole stall: `b = ctl + data` bubbles give exactly `b`
stalls and then a proceed; the window gets `b - 1` sentinels and the instruction's record; nothing else changes. -/
def Obligations.StallLastsItsBubbles : Prop :=
  ∀ (s : State) (c : Classified), s.issuing → s.classify = some c →
    (ticks (bubbles c s.sim.win + 1) s).1 = List.replicate (bubbles c s.sim.win) .stall ++ [.proceed] ∧
    (ticks (bubbles c s.sim.win + 1) s).2 = { s with sim := issuedSim s.sim c.dst (bubbles c s.sim.win) }

/-- Read after write: an instruction that reads a register the one issued just before it writes waits for exactly 3
bubbles beside its control bubbles, one with an instruction between for 2, with two between for 1, the newest match
counting alone; with no match for none. -/
def Obligations.DataHazardCountsFromTheNewestMatch : Prop :=
  (∀ (srcs : List Nybble) (r : Record),
    collides srcs r = true ↔ ∃ n ∈ srcs, n ≠ 0xE ∧ (n = r.d1 ∨ n = r.d0)) ∧
  (∀ (srcs : List Nybble) (w : Window) (i : Nat) (r : Record), [w.w0, w.w1, w.w2][i]? = some r →
    collides srcs r = true → (∀ (j : Nat) (r' : Record), j < i → [w.w0, w.w1, w.w2][j]? = some r' → collides srcs r' = false) →
    dataHazard srcs w = 3 - i) ∧
  (∀ (srcs : List Nybble) (w : Window),
    collides srcs w.w0 = false → collides srcs w.w1 = false → collides srcs w.w2 = false → dataHazard srcs w = 0)

/-- An ALU instruction issues, and the next instruction classified reads its destination: exactly 3 stalls, then a
proceed, given that it has no control bubbles of its own. -/
def Obligations.ReaderAfterAluWaitsThree : Prop :=
  ∀ (s u : State) (b0 rb : Byte) (c : Classified),
    s.issuing → s.readByte s.pc = some b0 → hi b0 = 6 → s.readByte (s.pc + 1) = some rb → (lo rb).toNat < 14 →
    u.fatal = none → (∃ n : Nat, u.sim = (ticks n s).2.sim ∧ (ticks n s).1 = List.replicate (n - 1) .stall ++ [.proceed]) →
    u.classify = some c → lo rb ∈ c.srcs → c.ctl = 0 →
      (ticks 4 u).1 = [.stall, .stall, .stall, .proceed]

/-- What `Classify` takes from the instruction at `PC`, base opcode by base opcode, the register byte where it has
one. The rows beside ALU, irmov, mrmov, push and pop, the jump policy and the call/return tracking are the spec's own
(decisions D19, D20, D21; log entries 21 and 22). -/
def Obligations.ClassifyFollowsTheTable : Prop :=
  ∀ (s : State) (b0 rb : Byte), s.readByte s.pc = some b0 →
    ((hi b0).toNat ∈ [0x2, 0x3, 0x4, 0x5, 0x6, 0xA, 0xB] → s.readByte (s.pc + 1) = some rb) →
    let keep (l : List Nybble) : List Nybble := l.filter (fun n => decide (n ≠ 0xE))
    let rA := hi rb
    let rB := lo rb
    let tracked : Option Nybble := if s.cfg.callRetSp then some 4 else none
    let taken : Bool := ((condOfNybble (lo b0)).map (fun c => condHolds c s.cc)).getD false
    let jumpCtl : Nat :=
      match s.cfg.jxxPolicy with
      | .nontrivialSelector => if lo b0 = 0 then 0 else 2
      | .takenOnly => if lo b0 ≠ 0 ∧ (lo b0).toNat ≤ 6 ∧ taken = true then 2 else 0
    s.classify = some (
      match (hi b0).toNat with
      | 0x2 => { srcs := keep [rA], dst := ⟨0xE, rB⟩, ctl := 0 }
      | 0x3 => { srcs := [], dst := ⟨0xE, rB⟩, ctl := 0 }
      | 0x4 => { srcs := keep [rA, rB], dst := ⟨0xE, 0xE⟩, ctl := 0 }
      | 0x5 => { srcs := keep [rB], dst := ⟨rA, 0xE⟩, ctl := 0 }
      | 0x6 => { srcs := keep [rA, rB], dst := ⟨0xE, rB⟩, ctl := 0 }
      | 0x7 => { srcs := [], dst := ⟨0xE, 0xE⟩, ctl := jumpCtl }
      | 0x8 => { srcs := tracked.toList, dst := ⟨0xE, tracked.getD 0xE⟩, ctl := 0 }
      | 0x9 => { srcs := tracked.toList, dst := ⟨0xE, tracked.getD 0xE⟩, ctl := 3 }
      | 0xA => { srcs := keep [rA, 4], dst := ⟨0xE, 4⟩, ctl := 0 }
      | 0xB => { srcs := [4], dst := ⟨rA, 4⟩, ctl := 0 }
      | _ => { srcs := [], dst := ⟨0xE, 0xE⟩, ctl := 0 })

/-- A tick never writes a register, memory, `PC`, `CC`, the fatal latch or the parameters, and writes `STAT` only where
its peek at `PC` fails: then `ADR`, a stall, and the simulator as it was. The failing peek is the spec's own choice
(decision D22; log entry 21). -/
def Obligations.TickTouchesOnlyItsOwnState : Prop :=
  ∀ s : State,
    (tick s).2.regs = s.regs ∧ (tick s).2.mem = s.mem ∧ (tick s).2.pc = s.pc ∧ (tick s).2.cc = s.cc ∧
    (tick s).2.fatal = s.fatal ∧ (tick s).2.cfg = s.cfg ∧
    ((tick s).2.stat = s.stat ∨ (s.issuing ∧ s.classify = none ∧ tick s = (.stall, { s with stat := .adr }))) ∧
    (s.issuing → s.classify = none → tick s = (.stall, { s with stat := .adr })) ∧
    (s.classify = none ↔ s.cfg.memSize ≤ s.pc.toNat ∨
      ((hi (s.mem.read s.pc.toNat)).toNat ∈ [0x2, 0x3, 0x4, 0x5, 0x6, 0xA, 0xB] ∧ s.cfg.memSize ≤ (s.pc + 1).toNat))

/-- Once the fatal latch is set, step and tick change nothing, and every tick stalls, in any order and for ever. The
spec's own choice (decisions D16, D31; log entries 6 and 21). -/
def Obligations.FatalStopsEngineAndSimulator : Prop :=
  ∀ s : State, s.fatal.isSome = true →
    step s = .next s ∧ tick s = (.stall, s) ∧ (∀ n : Nat, cycles n s = s) ∧
    (∀ n : Nat, ticks n s = (List.replicate n .stall, s))

/-- The cycle count of a run under the lock-step driver: from the start of the simulator, `n` instructions that wait
for `b` bubbles in all take `4 + n + b` cycles, and leave the state the engine alone reaches, with the simulator's. The
spec's inference (70_reset_and_hazards.md, "Cycle count of a run under the lock-step driver"). -/
def Obligations.LockStepRunTakesFourPlusInstructionsPlusBubbles : Prop :=
  ∀ (n b : Nat) (s t : State), s.fatal = none → s.sim.countdown = 4 → s.sim.stalling = false →
    lockStepInstrs n (ticks 4 s).2 = some (b, t) → cycles (4 + n + b) s = t

/-! The driver. -/

/-- Every call the driver can make, the three transactions and the store's operations alike, keeps the invariant. -/
def Obligations.EveryDriverCallKeepsTheInvariant : Prop :=
  ∀ (c : DriverCall) (s : State), s.Inv → (drive c s).2.Inv

/-- Each store operation that can fail does so exactly outside its range, and then sets `STAT` to `ADR` and does nothing
else; inside it a read answers what is held, and a write reads back and changes nothing else. The ranges are the spec's own choices (decisions D6, D11, D15; log entries 18, 19 and 29). -/
def Obligations.StoreFailsOutsideItsRange : Prop :=
  ∀ s : State,
    (∀ v : Word, drive (.writePc v) s =
      if v.toNat < s.cfg.memSize then (.done, { s with pc := v }) else (.failed, { s with stat := .adr })) ∧
    (∀ i : Nybble, 14 ≤ i.toNat → drive (.readReg i) s = (.failed, { s with stat := .adr }) ∧
      ∀ v : Word, drive (.writeReg i v) s = (.failed, { s with stat := .adr })) ∧
    (∀ i : Nybble, i.toNat < 14 → (∃ v, drive (.readReg i) s = (.word v, s)) ∧
      ∀ v : Word, ∃ t, drive (.writeReg i v) s = (.done, t) ∧ drive (.readReg i) t = (.word v, t) ∧
        regsSameBut [i] s t ∧ memSame s t ∧ t.pc = s.pc ∧ t.cc = s.cc ∧ controlSame s t) ∧
    (∀ a : Word, s.cfg.memSize ≤ a.toNat → drive (.readByte a) s = (.failed, { s with stat := .adr }) ∧
      ∀ b : Byte, drive (.writeByte a b) s = (.failed, { s with stat := .adr })) ∧
    (∀ a : Word, s.cfg.memSize < a.toNat + 8 → drive (.readWord a) s = (.failed, { s with stat := .adr }) ∧
      ∀ v : Word, drive (.writeWord a v) s = (.failed, { s with stat := .adr })) ∧
    (∀ a : Word, a.toNat < s.cfg.memSize → drive (.readByte a) s = (.byte (s.mem.read a.toNat), s)) ∧
    (s.mem.wf → ∀ (a : Word) (b : Byte), a.toNat < s.cfg.memSize → ∃ t, drive (.writeByte a b) s = (.done, t) ∧
      drive (.readByte a) t = (.byte b, t) ∧ (∀ x : Nat, x ≠ a.toNat → t.mem.read x = s.mem.read x) ∧
      t.regs = s.regs ∧ t.pc = s.pc ∧ t.cc = s.cc ∧ controlSame s t) ∧
    (∀ a : Word, a.toNat + 8 ≤ s.cfg.memSize → ∃ v, s.readWord a = some v ∧ drive (.readWord a) s = (.word v, s)) ∧
    (s.mem.wf → ∀ a v : Word, a.toNat + 8 ≤ s.cfg.memSize → ∃ t, drive (.writeWord a v) s = (.done, t) ∧
      drive (.readWord a) t = (.word v, t) ∧ memSameOutsideWord a s t ∧
      t.regs = s.regs ∧ t.pc = s.pc ∧ t.cc = s.cc ∧ controlSame s t)

/-- What the driver learns of the fatal error. From a running engine a step reports exactly on a bad selector, with its
`PC` and selector, and otherwise returns nothing; reading the latch between calls answers it and changes nothing; and a
step called while `FATAL` is 1 gives the report again and changes nothing, which is the model's choice (log entry 31).
The rendering is the spec's own (decision D16; log entry 6). -/
def Obligations.FatalErrorIsReportedToTheDriver : Prop :=
  (∀ s : State, s.fatal = none → s.stat = .run → s.pc.toNat < s.cfg.memSize →
    (badSelectorHeader (s.mem.read s.pc.toNat) →
      (drive .step s).1 = .fatal { pc := s.pc, sel := lo (s.mem.read s.pc.toNat) }) ∧
    (¬ badSelectorHeader (s.mem.read s.pc.toNat) → (drive .step s).1 = .done)) ∧
  (∀ s : State, drive .readFatal s = (.latch s.fatal, s)) ∧
  (∀ (s : State) (r : FatalReport), s.fatal = some r → drive .step s = (.fatal r, s)) ∧
  (∀ s : State, s.fatal = none → s.stat ≠ .run ∨ s.cfg.memSize ≤ s.pc.toNat → (drive .step s).1 = .done)

/-- The `reset` transaction: what it sets, and that registers, `CC` and memory are the driver's. The spec's own choice
(decision D17; log entry 24); that a byte the image does not list reads as an unlisted one is the model's (log entry
5). -/
def Obligations.ResetTransactionSetsTheStartState : Prop :=
  ∀ (s : State) (r : Vector Word 14) (c : Byte) (image : List Host.Cell),
    (image.map Prod.fst).Nodup → (∀ e ∈ image, e.1 < s.cfg.memSize) →
    ∃ t, drive (.reset r c image) s = (.done, t) ∧ t.stat = .run ∧ t.fatal = none ∧ t.pc = s.cfg.resetPc ∧
      t.sim.countdown = 4 ∧ t.sim.stalling = false ∧ t.sim.pending = ⟨0xE, 0xE⟩ ∧
      t.sim.win = ⟨⟨0xE, 0xE⟩, ⟨0xE, 0xE⟩, ⟨0xE, 0xE⟩⟩ ∧ t.regs = r ∧ t.cc = c ∧ t.cfg = s.cfg ∧
      (∀ e ∈ image, t.mem.read e.1 = e.2) ∧ (∀ a : Nat, a ∉ image.map Prod.fst → t.mem.read a = Memory.fill)
end

