-- ==== Sys2Proof/Laws/Decode.lean ====
section
/-! SUPPORT. The laws of the encoding: the bit fields, the words, the numbering tables, and what the parts of the
decoder do with the bytes the parts of the encoder make. -/

namespace Sys2Proof

@[simp] theorem hi_nybbles (h l : Nybble) : hi (nybbles h l) = h := by
  revert h l; decide

@[simp] theorem lo_nybbles (h l : Nybble) : lo (nybbles h l) = l := by
  revert h l; decide

@[simp] theorem nybbles_hi_lo (b : Byte) : nybbles (hi b) (lo b) = b := by
  revert b; decide

@[simp] theorem baseOpOfNybble_nybbleOfBaseOp (op : BaseOp) : baseOpOfNybble (nybbleOfBaseOp op) = some op := by
  cases op <;> rfl

@[simp] theorem condOfNybble_nybbleOfCond (c : Cond) : condOfNybble (nybbleOfCond c) = some c := by
  cases c <;> rfl

@[simp] theorem aluFnOfNybble_nybbleOfAluFn (f : AluFn) : aluFnOfNybble (nybbleOfAluFn f) = some f := by
  cases f <;> rfl

theorem baseOpOfNybble_eq_some {n : Nybble} {op : BaseOp} : baseOpOfNybble n = some op ↔ n = nybbleOfBaseOp op := by
  revert n; cases op <;> decide

theorem baseOpOfNybble_eq_none {n : Nybble} : baseOpOfNybble n = none ↔ 0xC ≤ n.toNat := by
  revert n; decide

theorem condOfNybble_eq_some {n : Nybble} {c : Cond} : condOfNybble n = some c ↔ n = nybbleOfCond c := by
  revert n; cases c <;> decide

theorem condOfNybble_eq_none {n : Nybble} : condOfNybble n = none ↔ 7 ≤ n.toNat := by
  revert n; decide

theorem aluFnOfNybble_eq_some {n : Nybble} {f : AluFn} : aluFnOfNybble n = some f ↔ n = nybbleOfAluFn f := by
  revert n; cases f <;> decide

theorem aluFnOfNybble_eq_none {n : Nybble} : aluFnOfNybble n = none ↔ 4 ≤ n.toNat := by
  revert n; decide

@[simp] theorem hi_headerOf (op : BaseOp) (fn : Nybble) : hi (headerOf op fn) = nybbleOfBaseOp op := hi_nybbles ..

@[simp] theorem lo_headerOf (op : BaseOp) (fn : Nybble) : lo (headerOf op fn) = fn := lo_nybbles ..

/-- A byte is the header of its base opcode and its low nybble. -/
theorem eq_headerOf {b : Byte} {op : BaseOp} (h : baseOpOfNybble (hi b) = some op) : b = headerOf op (lo b) := by
  rw [headerOf, ← baseOpOfNybble_eq_some.1 h, nybbles_hi_lo]

/-! Words. -/

/-- Bit `j` of a word is bit `j mod 8` of its byte `j / 8`. -/
theorem getLsbD_wordOfBytes (b0 b1 b2 b3 b4 b5 b6 b7 : Byte) (j : Nat) :
    (wordOfBytes b0 b1 b2 b3 b4 b5 b6 b7).getLsbD j =
      (([b0, b1, b2, b3, b4, b5, b6, b7])[j / 8]?.getD 0).getLsbD (j % 8) := by
  simp only [wordOfBytes, BitVec.getLsbD_append]
  rcases Nat.lt_or_ge j 64 with hj | hj
  · obtain ⟨q, r, hr, hq, rfl⟩ : ∃ q r, r < 8 ∧ q < 8 ∧ j = 8 * q + r := ⟨j / 8, j % 8, by omega, by omega, by omega⟩
    have e1 : (8 * q + r) / 8 = q := by omega
    have e2 : (8 * q + r) % 8 = r := by omega
    rw [e1, e2]
    obtain rfl | rfl | rfl | rfl | rfl | rfl | rfl | rfl :
        q = 0 ∨ q = 1 ∨ q = 2 ∨ q = 3 ∨ q = 4 ∨ q = 5 ∨ q = 6 ∨ q = 7 := by omega
    all_goals
      repeat first
        | rw [if_pos (by omega)]
        | rw [if_neg (by omega)]
    all_goals simp only [List.getElem?_cons_zero, List.getElem?_cons_succ, Option.getD_some]
    all_goals congr 1
    all_goals omega
  · have : 8 ≤ j / 8 := by omega
    rw [List.getElem?_eq_none (by simpa using this)]
    repeat rw [if_neg (by omega)]
    rw [BitVec.getLsbD_of_ge _ _ (by omega)]
    simp

@[simp] theorem wordOfBytes_byteOfWord (v : Word) :
    wordOfBytes (byteOfWord v 0) (byteOfWord v 1) (byteOfWord v 2) (byteOfWord v 3)
      (byteOfWord v 4) (byteOfWord v 5) (byteOfWord v 6) (byteOfWord v 7) = v := by
  apply BitVec.eq_of_getLsbD_eq
  intro j hj
  rw [getLsbD_wordOfBytes]
  obtain ⟨q, r, hr, hq, rfl⟩ : ∃ q r, r < 8 ∧ q < 8 ∧ j = 8 * q + r := ⟨j / 8, j % 8, by omega, by omega, by omega⟩
  have e1 : (8 * q + r) / 8 = q := by omega
  have e2 : (8 * q + r) % 8 = r := by omega
  rw [e1, e2]
  obtain rfl | rfl | rfl | rfl | rfl | rfl | rfl | rfl :
      q = 0 ∨ q = 1 ∨ q = 2 ∨ q = 3 ∨ q = 4 ∨ q = 5 ∨ q = 6 ∨ q = 7 := by omega
  all_goals simp [byteOfWord, hr]

theorem byteOfWord_wordOfBytes (b0 b1 b2 b3 b4 b5 b6 b7 : Byte) {i : Nat} (hi : i < 8) :
    byteOfWord (wordOfBytes b0 b1 b2 b3 b4 b5 b6 b7) i = ([b0, b1, b2, b3, b4, b5, b6, b7])[i] := by
  apply BitVec.eq_of_getLsbD_eq
  intro j hj
  simp only [byteOfWord, BitVec.getLsbD_extractLsb', hj, decide_true, Bool.true_and, getLsbD_wordOfBytes]
  have e1 : (8 * i + j) / 8 = i := by omega
  have e2 : (8 * i + j) % 8 = j := by omega
  rw [e1, e2, List.getElem?_eq_getElem (by simpa using hi)]
  rfl

@[simp] theorem bytesOfWord_length (v : Word) : (bytesOfWord v).length = 8 := rfl

/-- Taking a word back from the bytes it was laid out in. -/
@[simp] theorem decodeWord_bytesOfWord (v : Word) (rest : List Byte) (k : Word → Instr) :
    decodeWord (bytesOfWord v ++ rest) k = .instr (k v) rest := by
  simp [bytesOfWord, decodeWord]

@[simp] theorem decodeRegs_nybbles (rA rB : Nybble) (rest : List Byte) (k : Nybble → Nybble → Instr) :
    decodeRegs (nybbles rA rB :: rest) k = .instr (k rA rB) rest := by
  simp [decodeRegs]

@[simp] theorem decodeRegsWord_nybbles (rA rB : Nybble) (v : Word) (rest : List Byte)
    (k : Nybble → Nybble → Word → Instr) :
    decodeRegsWord (nybbles rA rB :: (bytesOfWord v ++ rest)) k = .instr (k rA rB v) rest := by
  simp [decodeRegsWord]

/-! What each part of the decoder can answer. -/

theorem decodeRegs_eq_instr {bs rest : List Byte} {k : Nybble → Nybble → Instr} {i : Instr}
    (h : decodeRegs bs k = .instr i rest) : ∃ rb, bs = rb :: rest ∧ i = k (hi rb) (lo rb) := by
  cases bs with
  | nil => simp [decodeRegs] at h
  | cons rb bs => simp only [decodeRegs, DecodeResult.instr.injEq] at h; exact ⟨rb, by rw [h.2], h.1.symm⟩

theorem decodeWord_eq_instr {bs rest : List Byte} {k : Word → Instr} {i : Instr}
    (h : decodeWord bs k = .instr i rest) :
    ∃ b0 b1 b2 b3 b4 b5 b6 b7, bs = b0 :: b1 :: b2 :: b3 :: b4 :: b5 :: b6 :: b7 :: rest ∧
      i = k (wordOfBytes b0 b1 b2 b3 b4 b5 b6 b7) := by
  unfold decodeWord at h
  split at h
  · simp only [DecodeResult.instr.injEq] at h
    exact ⟨_, _, _, _, _, _, _, _, by rw [h.2], h.1.symm⟩
  · simp at h

theorem decodeRegsWord_eq_instr {bs rest : List Byte} {k : Nybble → Nybble → Word → Instr} {i : Instr}
    (h : decodeRegsWord bs k = .instr i rest) :
    ∃ rb b0 b1 b2 b3 b4 b5 b6 b7, bs = rb :: b0 :: b1 :: b2 :: b3 :: b4 :: b5 :: b6 :: b7 :: rest ∧
      i = k (hi rb) (lo rb) (wordOfBytes b0 b1 b2 b3 b4 b5 b6 b7) := by
  cases bs with
  | nil => simp [decodeRegsWord] at h
  | cons rb bs =>
    obtain ⟨b0, b1, b2, b3, b4, b5, b6, b7, rfl, rfl⟩ := decodeWord_eq_instr h
    exact ⟨rb, b0, b1, b2, b3, b4, b5, b6, b7, rfl, rfl⟩

theorem decodeRegs_eq_reject {bs : List Byte} {k : Nybble → Nybble → Instr} {e : DecodeReject} :
    decodeRegs bs k = .reject e ↔ bs = [] ∧ e = .noRegisterByte := by
  cases bs <;> simp [decodeRegs, eq_comm]

theorem decodeWord_eq_reject {bs : List Byte} {k : Word → Instr} {e : DecodeReject} :
    decodeWord bs k = .reject e ↔ bs.length < 8 ∧ e = .noWord := by
  unfold decodeWord
  split
  · simp
  · rename_i h
    have : bs.length < 8 := by
      rcases bs with _ | ⟨b0, _ | ⟨b1, _ | ⟨b2, _ | ⟨b3, _ | ⟨b4, _ | ⟨b5, _ | ⟨b6, _ | ⟨b7, r⟩⟩⟩⟩⟩⟩⟩⟩
      all_goals first | (simp; done) | exact (h _ _ _ _ _ _ _ _ _ rfl).elim
    simp [this, eq_comm]

end Sys2Proof

namespace Sys2Proof.Machine

/-- The bytes the engine can fetch: position by position. -/
theorem bytesFrom_getElem? (m : Memory) (size n a k : Nat) :
    (m.bytesFrom size n a)[k]? = if k < n ∧ a + k < size then some (m.read (a + k)) else none := by
  induction n generalizing a k with
  | zero => simp [Memory.bytesFrom]
  | succ n ih =>
    simp only [Memory.bytesFrom]
    split
    · rename_i ha
      cases k with
      | zero => simp [ha]
      | succ k => simp [List.getElem?_cons_succ, ih, show a + 1 + k = a + (k + 1) by omega]
    · rename_i ha
      rw [if_neg (by omega)]; rfl

theorem bytesFrom_length (m : Memory) (size n a : Nat) : (m.bytesFrom size n a).length = min n (size - a) := by
  induction n generalizing a with
  | zero => simp [Memory.bytesFrom]
  | succ n ih =>
    simp only [Memory.bytesFrom]
    split
    · simp only [List.length_cons, ih]; omega
    · simp only [List.length_nil]; omega

end Sys2Proof.Machine
end

