-- ==== Sys2Proof/Laws/Driver.lean ====
section
/-! SUPPORT. What a call of the driver answers, by the outcome of the accessor behind it. A proof about the driver cites
these and unfolds no call. -/

namespace Sys2Proof.Machine

variable {s t : State}

theorem stepState_of_next (h : step s = .next t) : stepState s = t := by simp [stepState, h]

/-- A stopped engine's step is no change (42_engine_step.md R150 lines 1 and 2). -/
theorem step_of_stopped (h : s.stopped = true) : step s = .next s := by simp [step, h]

/-- A step's reply is the fatal latch of the state it leaves. -/
theorem drive_step (h : step s = .next t) :
    drive .step s = (match t.fatal with | some r => .fatal r | none => .done, t) := by
  obtain rfl := stepState_of_next h
  rfl

@[simp] theorem drive_readFatal : drive .readFatal s = (.latch s.fatal, s) := rfl

section
variable {α : Type} {o : Option α} {reply : α → DriverReply}

@[simp] theorem storeRead_some {a : α} : storeRead s (some a) reply = (reply a, s) := rfl
@[simp] theorem storeRead_none : storeRead s none reply = (.failed, { s with stat := .adr }) := rfl
@[simp] theorem storeWrite_some : storeWrite s (some t) = (.done, t) := rfl
@[simp] theorem storeWrite_none : storeWrite s none = (.failed, { s with stat := .adr }) := rfl
end

end Sys2Proof.Machine
end

