-- ==== Sys2Proof/Laws/State.lean ====
section
/-! SUPPORT. One lemma per field per named update of the state, all true by rfl, and what the accessors that can fail
answer. Proofs cite these and unfold no record update. -/

namespace Sys2Proof.Machine

/-! `State.take`. -/

@[simp] theorem take_addressFault (s : State) : s.take .addressFault = { s with stat := .adr } := rfl
@[simp] theorem take_instructionFault (s : State) : s.take .instructionFault = { s with stat := .ins } := rfl
@[simp] theorem take_fatal (s : State) (sel : Nybble) :
    s.take (.fatal sel) = { s with fatal := some { pc := s.pc, sel := sel } } := rfl

/-! `State.setSp`. -/

@[simp] theorem setSp_cfg (s : State) (v : Word) : (s.setSp v).cfg = s.cfg := rfl
@[simp] theorem setSp_regs (s : State) (v : Word) : (s.setSp v).regs = s.regs.set 4 v := rfl
@[simp] theorem setSp_pc (s : State) (v : Word) : (s.setSp v).pc = s.pc := rfl
@[simp] theorem setSp_cc (s : State) (v : Word) : (s.setSp v).cc = s.cc := rfl
@[simp] theorem setSp_stat (s : State) (v : Word) : (s.setSp v).stat = s.stat := rfl
@[simp] theorem setSp_fatal (s : State) (v : Word) : (s.setSp v).fatal = s.fatal := rfl
@[simp] theorem setSp_mem (s : State) (v : Word) : (s.setSp v).mem = s.mem := rfl
@[simp] theorem setSp_sim (s : State) (v : Word) : (s.setSp v).sim = s.sim := rfl

@[simp] theorem setSp_sp (s : State) (v : Word) : (s.setSp v).sp = v := by simp [State.sp, State.setSp]

/-! `State.resetTransaction`. -/

section
variable (s : State) (r : Vector Word 14) (c : Byte) (m : List Host.Cell)
@[simp] theorem resetTransaction_cfg : (s.resetTransaction r c m).cfg = s.cfg := rfl
@[simp] theorem resetTransaction_regs : (s.resetTransaction r c m).regs = r := rfl
@[simp] theorem resetTransaction_pc : (s.resetTransaction r c m).pc = s.cfg.resetPc := rfl
@[simp] theorem resetTransaction_cc : (s.resetTransaction r c m).cc = c := rfl
@[simp] theorem resetTransaction_stat : (s.resetTransaction r c m).stat = .run := rfl
@[simp] theorem resetTransaction_fatal : (s.resetTransaction r c m).fatal = none := rfl
@[simp] theorem resetTransaction_sim : (s.resetTransaction r c m).sim = StallSim.start := rfl
end

/-- The state after reset is the `reset` transaction with the log's initial values. -/
theorem reset_eq_resetTransaction :
    State.reset = State.reset.resetTransaction (Vector.replicate 14 0) 0 [] := rfl

/-! The accessors that can fail: what they answer, once. -/

section
variable {s t : State}

theorem readReg_eq_some {i : Nybble} {v : Word} :
    s.readReg i = some v ↔ ∃ h : i.toNat < 14, s.regs[i.toNat] = v := by
  unfold State.readReg; split <;> simp_all

theorem readReg_isSome {i : Nybble} : (s.readReg i).isSome ↔ i.toNat < 14 := by
  unfold State.readReg; split <;> simp_all

theorem readReg_eq_none {i : Nybble} : s.readReg i = none ↔ 14 ≤ i.toNat := by
  unfold State.readReg; split <;> simp_all

theorem writeReg_eq_some {i : Nybble} {v : Word} :
    s.writeReg i v = some t ↔ ∃ h : i.toNat < 14, t = { s with regs := s.regs.set i.toNat v } := by
  unfold State.writeReg; split <;> simp_all [eq_comm]

theorem writeReg_eq_none {i : Nybble} {v : Word} : s.writeReg i v = none ↔ 14 ≤ i.toNat := by
  unfold State.writeReg; split <;> simp_all

theorem writePc_eq_some {v : Word} :
    s.writePc v = some t ↔ v.toNat < s.cfg.memSize ∧ t = { s with pc := v } := by
  unfold State.writePc; split <;> simp_all [eq_comm]

theorem writePc_eq_none {v : Word} : s.writePc v = none ↔ s.cfg.memSize ≤ v.toNat := by
  unfold State.writePc; split <;> simp_all

theorem readByte_eq_some {a : Word} {b : Byte} :
    s.readByte a = some b ↔ a.toNat < s.cfg.memSize ∧ s.mem.read a.toNat = b := by
  unfold State.readByte State.byteInRange; split <;> simp_all

theorem readByte_eq_none {a : Word} : s.readByte a = none ↔ s.cfg.memSize ≤ a.toNat := by
  unfold State.readByte State.byteInRange; split <;> simp_all

theorem readWord_eq_some {a v : Word} :
    s.readWord a = some v ↔ a.toNat + 8 ≤ s.cfg.memSize ∧ s.mem.word a.toNat = v := by
  unfold State.readWord State.wordInRange; split <;> simp_all

theorem readWord_eq_none {a : Word} : s.readWord a = none ↔ s.cfg.memSize < a.toNat + 8 := by
  unfold State.readWord State.wordInRange; split <;> simp_all

theorem writeByte_eq_some {a : Word} {b : Byte} :
    s.writeByte a b = some t ↔ a.toNat < s.cfg.memSize ∧ t = { s with mem := s.mem.write a.toNat b } := by
  unfold State.writeByte State.byteInRange; split <;> simp_all [eq_comm]

theorem writeByte_eq_none {a : Word} {b : Byte} : s.writeByte a b = none ↔ s.cfg.memSize ≤ a.toNat := by
  unfold State.writeByte State.byteInRange; split <;> simp_all

theorem writeWord_eq_some {a v : Word} :
    s.writeWord a v = some t ↔ a.toNat + 8 ≤ s.cfg.memSize ∧ t = { s with mem := s.mem.writeWord a.toNat v } := by
  unfold State.writeWord State.wordInRange; split <;> simp_all [eq_comm]

theorem writeWord_eq_none {a v : Word} : s.writeWord a v = none ↔ s.cfg.memSize < a.toNat + 8 := by
  unfold State.writeWord State.wordInRange; split <;> simp_all

/-- The stack pointer is register 4 read by number. -/
theorem readReg_four : s.readReg 4 = some s.sp := rfl

/-- Writing register 4 by number is `setSp`. -/
theorem writeReg_four {v : Word} : s.writeReg 4 v = some (s.setSp v) := rfl

/-- A register reads the value written to it, and any other as before. -/
theorem readReg_of_writeReg {i j : Nybble} {v : Word} (h : s.writeReg i v = some t) :
    t.readReg j = if j = i then some v else s.readReg j := by
  obtain ⟨hi, rfl⟩ := writeReg_eq_some.1 h
  unfold State.readReg
  by_cases hj : j.toNat < 14
  · by_cases e : j = i
    · subst e; simp [hi]
    · have : i.toNat ≠ j.toNat := fun h => e (BitVec.eq_of_toNat_eq h.symm)
      simp [hj, e, this]
  · have : j ≠ i := fun e => hj (e ▸ hi)
    simp [hj, this]

/-- The stack pointer written, register by register. -/
theorem readReg_setSp {j : Nybble} {v : Word} :
    (s.setSp v).readReg j = if j = 4 then some v else s.readReg j :=
  readReg_of_writeReg (i := 4) writeReg_four

end

end Sys2Proof.Machine
end

