-- ==== Sys2Proof/Laws/Exec.lean ====
section
/-! SUPPORT. What a line of pseudocode and each frame can do, said once: every proof about an instruction takes its
cases from here and unfolds no meaning. -/

namespace Sys2Proof.Machine

@[simp] theorem orAddressFault_none {α : Type} (s : State) (k : α → Result) :
    orAddressFault none s k = .next { s with stat := .adr } := rfl

@[simp] theorem orAddressFault_some {α : Type} (a : α) (s : State) (k : α → Result) :
    orAddressFault (some a) s k = k a := rfl

/-- A line either fails, and the step ends in an address fault of the state so far, or the next line runs. -/
theorem orAddressFault_eq_next {α : Type} {o : Option α} {s t : State} {k : α → Result} :
    orAddressFault o s k = .next t ↔
      (o = none ∧ t = { s with stat := .adr }) ∨ ∃ a, o = some a ∧ k a = .next t := by
  cases o <;> simp [eq_comm]

/-- A line whose continuation always answers a next state does so too. -/
theorem orAddressFault_isNext {α : Type} {o : Option α} {s : State} {k : α → Result}
    (h : ∀ a, ∃ t, k a = .next t) : ∃ t, orAddressFault o s k = .next t := by
  cases o with
  | none => exact ⟨_, rfl⟩
  | some a => exact h a

section
variable {s t : State}

/-- The last line of most instructions: the program counter written, or the address fault that leaves it. -/
theorem writePc_last_cases {s0 : State} {v : Word}
    (h : (orAddressFault (s0.writePc v) s0 fun s1 => .next s1) = .next t) :
    (s0.cfg.memSize ≤ v.toNat ∧ t = { s0 with stat := .adr }) ∨
      (v.toNat < s0.cfg.memSize ∧ t = { s0 with pc := v }) := by
  rcases orAddressFault_eq_next.1 h with ⟨h1, rfl⟩ | ⟨s1, h1, h2⟩
  · exact .inl ⟨writePc_eq_none.1 h1, rfl⟩
  · obtain ⟨h3, rfl⟩ := writePc_eq_some.1 h1
    exact .inr ⟨h3, (Host.Outcome.next.inj h2).symm⟩

/-- Everything an ALU instruction can do (41_alu.md R131). -/
theorem aluFrame_cases {f : AluFn} {rA rB : Nybble} (h : aluFrame f rA rB s = .next t) :
    ((14 ≤ rA.toNat ∨ 14 ≤ rB.toNat) ∧ t = { s with stat := .adr }) ∨
    ∃ a b, ∃ hB : rB.toNat < 14, s.readReg rA = some a ∧ s.readReg rB = some b ∧
      ((s.cfg.memSize ≤ (s.pc + 2).toNat ∧
          t = { s with regs := s.regs.set rB.toNat (aluResult f a b), cc := aluFlags f a b, stat := .adr }) ∨
        ((s.pc + 2).toNat < s.cfg.memSize ∧
          t = { s with regs := s.regs.set rB.toNat (aluResult f a b), cc := aluFlags f a b, pc := s.pc + 2 })) := by
  unfold aluFrame at h
  rcases orAddressFault_eq_next.1 h with ⟨h1, rfl⟩ | ⟨a, ha, h⟩
  · exact .inl ⟨.inl (readReg_eq_none.1 h1), rfl⟩
  rcases orAddressFault_eq_next.1 h with ⟨h1, rfl⟩ | ⟨b, hb, h⟩
  · exact .inl ⟨.inr (readReg_eq_none.1 h1), rfl⟩
  rcases orAddressFault_eq_next.1 h with ⟨h1, rfl⟩ | ⟨s1, h1, h⟩
  · exact .inl ⟨.inr (writeReg_eq_none.1 h1), rfl⟩
  obtain ⟨hB, rfl⟩ := writeReg_eq_some.1 h1
  exact .inr ⟨a, b, hB, ha, hb, writePc_last_cases h⟩

/-- Everything a conditional move can do (43_moves.md R180). -/
theorem moveFrame_cases {c : Cond} {rA rB : Nybble} (h : moveFrame c rA rB s = .next t) :
    (s.cfg.memSize ≤ (s.pc + 2).toNat ∧ t = { s with stat := .adr }) ∨
    ((s.pc + 2).toNat < s.cfg.memSize ∧
      ((condHolds c s.cc = false ∧ t = { s with pc := s.pc + 2 }) ∨
       (condHolds c s.cc = true ∧ (14 ≤ rA.toNat ∨ 14 ≤ rB.toNat) ∧ t = { s with pc := s.pc + 2, stat := .adr }) ∨
       (condHolds c s.cc = true ∧ ∃ v, ∃ hB : rB.toNat < 14, s.readReg rA = some v ∧
          t = { s with pc := s.pc + 2, regs := s.regs.set rB.toNat v }))) := by
  unfold moveFrame at h
  rcases orAddressFault_eq_next.1 h with ⟨h1, rfl⟩ | ⟨s1, h1, h⟩
  · exact .inl ⟨writePc_eq_none.1 h1, rfl⟩
  obtain ⟨hpc, rfl⟩ := writePc_eq_some.1 h1
  refine .inr ⟨hpc, ?_⟩
  split at h
  · rename_i hc
    refine .inr ?_
    rcases orAddressFault_eq_next.1 h with ⟨h1, rfl⟩ | ⟨v, hv, h⟩
    · exact .inl ⟨hc, .inl (readReg_eq_none.1 h1), rfl⟩
    rcases orAddressFault_eq_next.1 h with ⟨h1, rfl⟩ | ⟨s2, h2, h⟩
    · exact .inl ⟨hc, .inr (writeReg_eq_none.1 h1), rfl⟩
    obtain ⟨hB, rfl⟩ := writeReg_eq_some.1 h2
    exact .inr ⟨hc, v, hB, hv, (Host.Outcome.next.inj h).symm⟩
  · rename_i hc
    exact .inl ⟨by simpa using hc, (Host.Outcome.next.inj h).symm⟩

/-- Everything irmov can do (43_moves.md R189). -/
theorem execIrmov_cases {rB : Nybble} {v : Word} (h : execIrmov rB v s = .next t) :
    (14 ≤ rB.toNat ∧ t = { s with stat := .adr }) ∨
    ∃ hB : rB.toNat < 14,
      (s.cfg.memSize ≤ (s.pc + 10).toNat ∧ t = { s with regs := s.regs.set rB.toNat v, stat := .adr }) ∨
      ((s.pc + 10).toNat < s.cfg.memSize ∧ t = { s with regs := s.regs.set rB.toNat v, pc := s.pc + 10 }) := by
  unfold execIrmov at h
  rcases orAddressFault_eq_next.1 h with ⟨h1, rfl⟩ | ⟨s1, h1, h⟩
  · exact .inl ⟨writeReg_eq_none.1 h1, rfl⟩
  obtain ⟨hB, rfl⟩ := writeReg_eq_some.1 h1
  exact .inr ⟨hB, writePc_last_cases h⟩

/-- Everything rmmov can do (43_moves.md R190). -/
theorem execRmmov_cases {rA rB : Nybble} {d : Word} (h : execRmmov rA rB d s = .next t) :
    ((14 ≤ rA.toNat ∨ 14 ≤ rB.toNat) ∧ t = { s with stat := .adr }) ∨
    ∃ base v, s.readReg rB = some base ∧ s.readReg rA = some v ∧
      ((s.cfg.memSize < (effectiveAddress base d).toNat + 8 ∧ t = { s with stat := .adr }) ∨
       ((effectiveAddress base d).toNat + 8 ≤ s.cfg.memSize ∧
         ((s.cfg.memSize ≤ (s.pc + 10).toNat ∧
             t = { s with mem := s.mem.writeWord (effectiveAddress base d).toNat v, stat := .adr }) ∨
          ((s.pc + 10).toNat < s.cfg.memSize ∧
             t = { s with mem := s.mem.writeWord (effectiveAddress base d).toNat v, pc := s.pc + 10 })))) := by
  unfold execRmmov at h
  rcases orAddressFault_eq_next.1 h with ⟨h1, rfl⟩ | ⟨base, hb, h⟩
  · exact .inl ⟨.inr (readReg_eq_none.1 h1), rfl⟩
  rcases orAddressFault_eq_next.1 h with ⟨h1, rfl⟩ | ⟨v, hv, h⟩
  · exact .inl ⟨.inl (readReg_eq_none.1 h1), rfl⟩
  refine .inr ⟨base, v, hb, hv, ?_⟩
  rcases orAddressFault_eq_next.1 h with ⟨h1, rfl⟩ | ⟨s1, h1, h⟩
  · exact .inl ⟨writeWord_eq_none.1 h1, rfl⟩
  obtain ⟨hr, rfl⟩ := writeWord_eq_some.1 h1
  exact .inr ⟨hr, writePc_last_cases h⟩

/-- Everything mrmov can do (43_moves.md R191). -/
theorem execMrmov_cases {rA rB : Nybble} {d : Word} (h : execMrmov rA rB d s = .next t) :
    ((14 ≤ rA.toNat ∨ 14 ≤ rB.toNat) ∧ t = { s with stat := .adr }) ∨
    ∃ base, s.readReg rB = some base ∧
      ((s.cfg.memSize < (effectiveAddress base d).toNat + 8 ∧ t = { s with stat := .adr }) ∨
       ((effectiveAddress base d).toNat + 8 ≤ s.cfg.memSize ∧ ∃ hA : rA.toNat < 14,
         ((s.cfg.memSize ≤ (s.pc + 10).toNat ∧
             t = { s with regs := s.regs.set rA.toNat (s.mem.word (effectiveAddress base d).toNat), stat := .adr }) ∨
          ((s.pc + 10).toNat < s.cfg.memSize ∧
             t = { s with regs := s.regs.set rA.toNat (s.mem.word (effectiveAddress base d).toNat),
                          pc := s.pc + 10 })))) := by
  unfold execMrmov at h
  rcases orAddressFault_eq_next.1 h with ⟨h1, rfl⟩ | ⟨base, hb, h⟩
  · exact .inl ⟨.inr (readReg_eq_none.1 h1), rfl⟩
  rcases orAddressFault_eq_next.1 h with ⟨h1, rfl⟩ | ⟨v, hv, h⟩
  · exact .inr ⟨base, hb, .inl ⟨readWord_eq_none.1 h1, rfl⟩⟩
  obtain ⟨hr, rfl⟩ := readWord_eq_some.1 hv
  rcases orAddressFault_eq_next.1 h with ⟨h1, rfl⟩ | ⟨s1, h1, h⟩
  · exact .inl ⟨.inl (writeReg_eq_none.1 h1), rfl⟩
  obtain ⟨hA, rfl⟩ := writeReg_eq_some.1 h1
  exact .inr ⟨base, hb, .inr ⟨hr, hA, writePc_last_cases h⟩⟩

/-- Everything a jump can do (44_jumps_calls_stack.md R200). -/
theorem jumpFrame_cases {c : Cond} {v : Word} (h : jumpFrame c v s = .next t) :
    (s.cfg.memSize ≤ (if condHolds c s.cc then v else s.pc + 9).toNat ∧ t = { s with stat := .adr }) ∨
    ((if condHolds c s.cc then v else s.pc + 9).toNat < s.cfg.memSize ∧
      t = { s with pc := if condHolds c s.cc then v else s.pc + 9 }) :=
  writePc_last_cases h

/-- Everything call can do (44_jumps_calls_stack.md R208). -/
theorem execCall_cases {v : Word} (h : execCall v s = .next t) :
    (s.cfg.memSize < s.pushAddress.toNat + 8 ∧ t = { s.setSp s.pushAddress with stat := .adr }) ∨
    (s.pushAddress.toNat + 8 ≤ s.cfg.memSize ∧
      ((s.cfg.memSize ≤ v.toNat ∧
          t = { s.setSp s.pushAddress with mem := s.mem.writeWord s.pushAddress.toNat (s.pc + 9), stat := .adr }) ∨
        (v.toNat < s.cfg.memSize ∧
          t = { s.setSp s.pushAddress with mem := s.mem.writeWord s.pushAddress.toNat (s.pc + 9), pc := v }))) := by
  unfold execCall at h
  rcases orAddressFault_eq_next.1 h with ⟨h1, rfl⟩ | ⟨s1, h1, h⟩
  · exact .inl ⟨(writeWord_eq_none (s := s.setSp _)).1 h1, rfl⟩
  obtain ⟨hr, rfl⟩ := writeWord_eq_some.1 h1
  exact .inr ⟨hr, writePc_last_cases h⟩

/-- Everything ret can do (44_jumps_calls_stack.md R210). -/
theorem execRet_cases (h : execRet s = .next t) :
    ((s.cfg.memSize < s.sp.toNat + 8 ∨ s.cfg.memSize ≤ (s.mem.word s.sp.toNat).toNat) ∧ t = { s with stat := .adr }) ∨
    (s.sp.toNat + 8 ≤ s.cfg.memSize ∧ (s.mem.word s.sp.toNat).toNat < s.cfg.memSize ∧
      t = { s.setSp (popAdjust s.sp) with pc := s.mem.word s.sp.toNat }) := by
  unfold execRet at h
  rcases orAddressFault_eq_next.1 h with ⟨h1, rfl⟩ | ⟨v, hv, h⟩
  · exact .inl ⟨.inl (readWord_eq_none.1 h1), rfl⟩
  obtain ⟨hr, rfl⟩ := readWord_eq_some.1 hv
  rcases orAddressFault_eq_next.1 h with ⟨h1, rfl⟩ | ⟨s1, h1, h⟩
  · exact .inl ⟨.inr (writePc_eq_none.1 h1), rfl⟩
  obtain ⟨hp, rfl⟩ := writePc_eq_some.1 h1
  exact .inr ⟨hr, hp, (Host.Outcome.next.inj h).symm⟩

/-- Everything push can do (44_jumps_calls_stack.md R212). -/
theorem execPush_cases {rA : Nybble} (h : execPush rA s = .next t) :
    (14 ≤ rA.toNat ∧ t = { s.setSp s.pushAddress with stat := .adr }) ∨
    ∃ v, (pushOperandState s (s.setSp s.pushAddress)).readReg rA = some v ∧
      ((s.cfg.memSize < s.pushAddress.toNat + 8 ∧ t = { s.setSp s.pushAddress with stat := .adr }) ∨
       (s.pushAddress.toNat + 8 ≤ s.cfg.memSize ∧
         ((s.cfg.memSize ≤ (s.pc + 2).toNat ∧
             t = { s.setSp s.pushAddress with mem := s.mem.writeWord s.pushAddress.toNat v, stat := .adr }) ∨
          ((s.pc + 2).toNat < s.cfg.memSize ∧
             t = { s.setSp s.pushAddress with mem := s.mem.writeWord s.pushAddress.toNat v, pc := s.pc + 2 })))) := by
  unfold execPush at h
  rcases orAddressFault_eq_next.1 h with ⟨h1, rfl⟩ | ⟨v, hv, h⟩
  · exact .inl ⟨readReg_eq_none.1 h1, rfl⟩
  refine .inr ⟨v, hv, ?_⟩
  rcases orAddressFault_eq_next.1 h with ⟨h1, rfl⟩ | ⟨s1, h1, h⟩
  · exact .inl ⟨(writeWord_eq_none (s := s.setSp _)).1 h1, rfl⟩
  obtain ⟨hr, rfl⟩ := writeWord_eq_some.1 h1
  exact .inr ⟨hr, writePc_last_cases h⟩

/-- The registers pop leaves: nothing but registers changes, and which of the three orders wrote them is the
parameter's (44_jumps_calls_stack.md R213, R214). -/
theorem popRegs_eq_some {rA : Nybble} {sp v : Word} :
    s.popRegs rA sp v = some t ↔ ∃ h : rA.toNat < 14, t = { s with regs :=
      match s.cfg.spOperand with
      | .adjusted => (s.regs.set rA.toNat v).set 4 (popAdjust sp)
      | .original => (s.regs.set 4 (popAdjust sp)).set rA.toNat v
      | .reread => (s.regs.set rA.toNat v).set 4 (popAdjust (s.regs.set rA.toNat v)[4]) } := by
  unfold State.popRegs
  by_cases h : rA.toNat < 14 <;> cases s.cfg.spOperand <;>
    simp [State.writeReg, h, State.setSp, State.sp, spReg, eq_comm]

theorem popRegs_eq_none {rA : Nybble} {sp v : Word} : s.popRegs rA sp v = none ↔ 14 ≤ rA.toNat := by
  unfold State.popRegs
  cases s.cfg.spOperand <;> simp [writeReg_eq_none]

/-- Everything pop can do (44_jumps_calls_stack.md R213). -/
theorem execPop_cases {rA : Nybble} (h : execPop rA s = .next t) :
    ((s.cfg.memSize < s.sp.toNat + 8 ∨ 14 ≤ rA.toNat) ∧ t = { s with stat := .adr }) ∨
    ∃ s1, s.sp.toNat + 8 ≤ s.cfg.memSize ∧ s.popRegs rA s.sp (s.mem.word s.sp.toNat) = some s1 ∧
      ((s.cfg.memSize ≤ (s.pc + 2).toNat ∧ t = { s1 with stat := .adr }) ∨
        ((s.pc + 2).toNat < s.cfg.memSize ∧ t = { s1 with pc := s.pc + 2 })) := by
  unfold execPop at h
  rcases orAddressFault_eq_next.1 h with ⟨h1, rfl⟩ | ⟨v, hv, h⟩
  · exact .inl ⟨.inl (readWord_eq_none.1 h1), rfl⟩
  obtain ⟨hr, rfl⟩ := readWord_eq_some.1 hv
  rcases orAddressFault_eq_next.1 h with ⟨h1, rfl⟩ | ⟨s1, h1, h2⟩
  · exact .inl ⟨.inr (popRegs_eq_none.1 h1), rfl⟩
  refine .inr ⟨s1, hr, h1, ?_⟩
  obtain ⟨_, rfl⟩ := popRegs_eq_some.1 h1
  exact writePc_last_cases h2

end

end Sys2Proof.Machine
end

