-- ==== Sys2Proof/Laws/Hazard.lean ====
section
/-! SUPPORT. What a tick can do, said once (70_reset_and_hazards.md R272), and the bounds of the bubble counts. -/

namespace Sys2Proof.Machine

/-- Everything a tick can do. -/
theorem tick_cases (s : State) :
    (s.fatal.isSome = true ∧ tick s = (.stall, s)) ∨
    (s.fatal = none ∧ 0 < s.sim.countdown ∧ tick s = (.stall, { s with sim := s.sim.drain })) ∨
    (s.fatal = none ∧ s.sim.countdown = 0 ∧ s.sim.stalling = true ∧
      tick s = (.proceed, { s with sim := { s.sim with stalling := false } })) ∨
    (s.fatal = none ∧ s.sim.countdown = 0 ∧ s.sim.stalling = false ∧ s.classify = none ∧
      tick s = (.stall, { s with stat := .adr })) ∨
    (∃ c, s.fatal = none ∧ s.sim.countdown = 0 ∧ s.sim.stalling = false ∧ s.classify = some c ∧
      bubbles c s.sim.win = 0 ∧ tick s = (.proceed, { s with sim := { s.sim with win := s.sim.win.shiftIn c.dst } })) ∨
    (∃ c, s.fatal = none ∧ s.sim.countdown = 0 ∧ s.sim.stalling = false ∧ s.classify = some c ∧
      0 < bubbles c s.sim.win ∧ tick s = (.stall, { s with sim :=
        { s.sim with countdown := bubbles c s.sim.win, stalling := true, pending := c.dst }.drain })) := by
  unfold tick
  split
  · exact .inl ⟨‹_›, rfl⟩
  rename_i hf
  have hf : s.fatal = none := by simpa using hf
  split
  · exact .inr (.inl ⟨hf, ‹_›, rfl⟩)
  rename_i hc
  have hc : s.sim.countdown = 0 := by omega
  split
  · exact .inr (.inr (.inl ⟨hf, hc, ‹_›, rfl⟩))
  rename_i hs
  have hs : s.sim.stalling = false := by simpa using hs
  split
  · exact .inr (.inr (.inr (.inl ⟨hf, hc, hs, ‹_›, rfl⟩)))
  rename_i c hcl
  split
  · exact .inr (.inr (.inr (.inr (.inl ⟨c, hf, hc, hs, hcl, ‹_›, rfl⟩))))
  · exact .inr (.inr (.inr (.inr (.inr ⟨c, hf, hc, hs, hcl, by omega, rfl⟩))))

theorem dataHazard_le (srcs : List Nybble) (w : Window) : dataHazard srcs w ≤ 3 := by
  unfold dataHazard; repeat' split
  all_goals omega

/-- The windows of draining: a sentinel in every bubble but the last of a hazard stall, which shifts in the stalled
instruction's record (70_reset_and_hazards.md R280, R281). -/
theorem drain_of_more {m : StallSim} {n : Nat} (h : m.countdown = n + 2) :
    m.drain = { m with countdown := n + 1, win := m.win.shiftIn .none } := by
  simp [StallSim.drain, h]

theorem drain_of_last {m : StallSim} (h : m.countdown = 1) (hs : m.stalling = true) :
    m.drain = { m with countdown := 0, win := m.win.shiftIn m.pending } := by
  simp [StallSim.drain, h, hs]

theorem drain_of_filling {m : StallSim} (hs : m.stalling = false) :
    m.drain = { m with countdown := m.countdown - 1, win := m.win.shiftIn .none } := by
  simp [StallSim.drain, hs]

end Sys2Proof.Machine
end

