-- ==== Sys2Proof/Laws/Memory.lean ====
section
/-! SUPPORT. The laws of memory: a read after a write, the canonical form kept by every operation, words. -/

namespace Sys2Proof.Machine

theorem wf_nil : Memory.wf [] := by decide

theorem wf_tail {c : Host.Cell} {m : Memory} (h : Memory.wf (c :: m)) : Memory.wf m :=
  ⟨(List.pairwise_cons.1 h.1).2, fun d hd => h.2 d (List.mem_cons_of_mem _ hd)⟩

/-- An address below every listed one is unlisted. -/
theorem read_of_lt_all {m : Memory} {a : Nat} (h : ∀ c ∈ m, a < c.1) : m.read a = Memory.fill := by
  induction m with
  | nil => rfl
  | cons c m ih =>
    have hc := h c (List.mem_cons_self ..)
    simp only [Memory.read]
    rw [if_neg (by omega), ih fun d hd => h d (List.mem_cons_of_mem _ hd)]

theorem read_write_other {a x : Nat} (b : Byte) (m : Memory) (h : x ≠ a) : (m.write a b).read x = m.read x := by
  induction m with
  | nil => by_cases hb : b = Memory.fill <;> simp [Memory.write, Memory.read, hb, h]
  | cons c m ih =>
    obtain ⟨y, d⟩ := c
    simp only [Memory.write]
    split
    · split <;> simp [Memory.read, h]
    · split
      · subst y; split <;> simp [Memory.read, h]
      · simp [Memory.read, ih]

theorem read_write_same {m : Memory} (hm : m.wf) (a : Nat) (b : Byte) : (m.write a b).read a = b := by
  induction m with
  | nil => by_cases hb : b = Memory.fill <;> simp [Memory.write, Memory.read, hb]
  | cons c m ih =>
    obtain ⟨y, d⟩ := c
    have hlt : ∀ e ∈ m, y < e.1 := (List.pairwise_cons.1 hm.1).1
    simp only [Memory.write]
    split
    · split
      · rename_i hay hb
        rw [hb, read_of_lt_all]
        intro e he
        rcases List.mem_cons.1 he with rfl | he
        · exact hay
        · exact lt_trans hay (hlt e he)
      · simp [Memory.read]
    · split
      · subst y
        split
        · rename_i hb; rw [hb, read_of_lt_all hlt]
        · simp [Memory.read]
      · rename_i h1 h2; simp [Memory.read, h2, ih (wf_tail hm)]

/-- The entries of memory after a write: the new one, or an old one. -/
theorem mem_write {m : Memory} {a : Nat} {b : Byte} {c : Host.Cell} (h : c ∈ m.write a b) :
    (c = (a, b) ∧ b ≠ Memory.fill) ∨ c ∈ m := by
  induction m with
  | nil =>
    simp only [Memory.write] at h
    split at h
    · simp at h
    · rename_i hb; exact .inl ⟨List.mem_singleton.1 h, hb⟩
  | cons e m ih =>
    obtain ⟨y, d⟩ := e
    simp only [Memory.write] at h
    split at h
    · split at h
      · exact .inr h
      · rename_i hb
        rcases List.mem_cons.1 h with rfl | h
        · exact .inl ⟨rfl, hb⟩
        · exact .inr h
    · split at h
      · split at h
        · exact .inr (List.mem_cons_of_mem _ h)
        · rename_i hb
          rcases List.mem_cons.1 h with rfl | h
          · exact .inl ⟨rfl, hb⟩
          · exact .inr (List.mem_cons_of_mem _ h)
      · rcases List.mem_cons.1 h with rfl | h
        · exact .inr (List.mem_cons_self ..)
        · exact (ih h).imp id (List.mem_cons_of_mem _)

theorem write_wf {m : Memory} (hm : m.wf) (a : Nat) (b : Byte) : (m.write a b).wf := by
  refine ⟨?_, fun c hc => ?_⟩
  · induction m with
    | nil => simp only [Memory.write]; split <;> simp
    | cons e m ih =>
      obtain ⟨y, d⟩ := e
      have hp := List.pairwise_cons.1 hm.1
      simp only [Memory.write]
      split
      · rename_i hay
        split
        · exact hm.1
        · refine List.pairwise_cons.2 ⟨fun c hc => ?_, hm.1⟩
          rcases List.mem_cons.1 hc with rfl | hc
          · exact hay
          · exact lt_trans hay (hp.1 c hc)
      · split
        · subst y
          split
          · exact hp.2
          · exact List.pairwise_cons.2 ⟨hp.1, hp.2⟩
        · refine List.pairwise_cons.2 ⟨fun c hc => ?_, ih (wf_tail hm)⟩
          rcases mem_write hc with ⟨rfl, -⟩ | hc
          · change y < a; omega
          · exact hp.1 c hc
  · rcases mem_write hc with ⟨rfl, hb⟩ | hc
    · exact hb
    · exact hm.2 c hc

theorem write_below {m : Memory} {n a : Nat} {b : Byte} (hm : m.below n) (ha : a < n) : (m.write a b).below n := by
  intro c hc
  rcases mem_write hc with ⟨rfl, -⟩ | hc
  · exact ha
  · exact hm c hc

/-! Words. -/

theorem writeWord_wf {m : Memory} (hm : m.wf) (a : Nat) (v : Word) : (m.writeWord a v).wf := by
  unfold Memory.writeWord
  exact write_wf (write_wf (write_wf (write_wf (write_wf (write_wf (write_wf (write_wf hm _ _) _ _) _ _) _ _) _ _)
    _ _) _ _) _ _

theorem writeWord_below {m : Memory} {n a : Nat} (v : Word) (hm : m.below n) (ha : a + 8 ≤ n) :
    (m.writeWord a v).below n := by
  unfold Memory.writeWord
  repeat' apply write_below
  all_goals first | exact hm | omega

theorem read_writeWord_outside (m : Memory) {a x : Nat} (v : Word) (h : x < a ∨ a + 8 ≤ x) :
    (m.writeWord a v).read x = m.read x := by
  unfold Memory.writeWord
  repeat rw [read_write_other _ _ (by omega)]

theorem read_writeWord_inside {m : Memory} (hm : m.wf) (a : Nat) (v : Word) {i : Nat} (hi : i < 8) :
    (m.writeWord a v).read (a + i) = byteOfWord v i := by
  unfold Memory.writeWord
  have key : ∀ {m' : Memory} {k : Nat}, m'.wf → (m'.write (a + k) (byteOfWord v k)).read (a + k) = byteOfWord v k :=
    fun h => read_write_same h _ _
  have w0 := write_wf hm a (byteOfWord v 0)
  have w1 := write_wf w0 (a + 1) (byteOfWord v 1)
  have w2 := write_wf w1 (a + 2) (byteOfWord v 2)
  have w3 := write_wf w2 (a + 3) (byteOfWord v 3)
  have w4 := write_wf w3 (a + 4) (byteOfWord v 4)
  have w5 := write_wf w4 (a + 5) (byteOfWord v 5)
  have w6 := write_wf w5 (a + 6) (byteOfWord v 6)
  obtain rfl | rfl | rfl | rfl | rfl | rfl | rfl | rfl :
      i = 0 ∨ i = 1 ∨ i = 2 ∨ i = 3 ∨ i = 4 ∨ i = 5 ∨ i = 6 ∨ i = 7 := by omega
  · repeat rw [read_write_other _ _ (by omega)]
    exact read_write_same hm a _
  · iterate 6 rw [read_write_other _ _ (by omega)]
    exact key w0
  · iterate 5 rw [read_write_other _ _ (by omega)]
    exact key w1
  · iterate 4 rw [read_write_other _ _ (by omega)]
    exact key w2
  · iterate 3 rw [read_write_other _ _ (by omega)]
    exact key w3
  · iterate 2 rw [read_write_other _ _ (by omega)]
    exact key w4
  · rw [read_write_other _ _ (by omega)]
    exact key w5
  · exact key w6

/-- Two words of memory are equal where their eight bytes are. -/
theorem word_congr {m m' : Memory} {a : Nat} (h : ∀ i < 8, m'.read (a + i) = m.read (a + i)) :
    m'.word a = m.word a := by
  unfold Memory.word
  have h0 := h 0 (by omega)
  simp only [Nat.add_zero] at h0
  rw [h0, h 1 (by omega), h 2 (by omega), h 3 (by omega), h 4 (by omega), h 5 (by omega), h 6 (by omega),
    h 7 (by omega)]

/-! Images. -/

theorem writeBytes_wf {m : Memory} (hm : m.wf) (size a : Nat) (bs : List Byte) : (m.writeBytes size a bs).wf := by
  induction bs generalizing m a with
  | nil => exact hm
  | cons b bs ih => simp only [Memory.writeBytes]; split <;> exact ih (by first | exact write_wf hm _ _ | exact hm) _

theorem writeBytes_below {m : Memory} {size : Nat} (hm : m.below size) (a : Nat) (bs : List Byte) :
    (m.writeBytes size a bs).below size := by
  induction bs generalizing m a with
  | nil => exact hm
  | cons b bs ih =>
    simp only [Memory.writeBytes]
    split
    · rename_i ha; exact ih (write_below hm ha) _
    · exact ih hm _

/-- The driver's initial image, put into memory by the `reset` transaction, is in canonical form and inside memory. -/
theorem resetTransaction_mem (s : State) (r : Vector Word 14) (c : Byte) (image : List Host.Cell) :
    (s.resetTransaction r c image).mem.wf ∧ (s.resetTransaction r c image).mem.below s.cfg.memSize := by
  have key : ∀ (image : List Host.Cell) (m : Memory), m.wf → m.below s.cfg.memSize →
      (image.foldl (fun m c => if c.1 < s.cfg.memSize then m.write c.1 c.2 else m) m).wf ∧
        (image.foldl (fun m c => if c.1 < s.cfg.memSize then m.write c.1 c.2 else m) m).below s.cfg.memSize := by
    intro image
    induction image with
    | nil => exact fun m hw hb => ⟨hw, hb⟩
    | cons c image ih =>
      intro m hw hb
      simp only [List.foldl_cons]
      split
      · rename_i hc; exact ih _ (write_wf hw _ _) (write_below hb hc)
      · exact ih _ hw hb
  exact key image [] wf_nil (by simp [Memory.below])

end Sys2Proof.Machine
end

