-- ==== Sys2Proof/Laws/PerInstr.lean ====
section
/-! SUPPORT. Statements about every instruction as syntax, one lemma a constructor. -/

/-- The canonical bytes of an instruction are as many as its length (30_encoding.md R82). -/
def Sys2Proof.Laws.EncodeLength.Statement (i : Sys2Proof.Instr) : Prop :=
  (Sys2Proof.encode i).length = i.length

namespace Sys2Proof.Laws.EncodeLength

open Sys2Proof

theorem halt : Statement (Instr.halt) := rfl
theorem nop : Statement (Instr.nop) := rfl
theorem rrmov (rA rB : Nybble) : Statement (Instr.rrmov rA rB) := rfl
theorem cmovle (rA rB : Nybble) : Statement (Instr.cmovle rA rB) := rfl
theorem cmovl (rA rB : Nybble) : Statement (Instr.cmovl rA rB) := rfl
theorem cmove (rA rB : Nybble) : Statement (Instr.cmove rA rB) := rfl
theorem cmovne (rA rB : Nybble) : Statement (Instr.cmovne rA rB) := rfl
theorem cmovge (rA rB : Nybble) : Statement (Instr.cmovge rA rB) := rfl
theorem cmovg (rA rB : Nybble) : Statement (Instr.cmovg rA rB) := rfl
theorem irmov (rB : Nybble) (v : Word) : Statement (Instr.irmov rB v) := rfl
theorem rmmov (rA rB : Nybble) (d : Word) : Statement (Instr.rmmov rA rB d) := rfl
theorem mrmov (rA rB : Nybble) (d : Word) : Statement (Instr.mrmov rA rB d) := rfl
theorem add (rA rB : Nybble) : Statement (Instr.add rA rB) := rfl
theorem sub (rA rB : Nybble) : Statement (Instr.sub rA rB) := rfl
theorem and (rA rB : Nybble) : Statement (Instr.and rA rB) := rfl
theorem xor (rA rB : Nybble) : Statement (Instr.xor rA rB) := rfl
theorem jmp (v : Word) : Statement (Instr.jmp v) := rfl
theorem jle (v : Word) : Statement (Instr.jle v) := rfl
theorem jl (v : Word) : Statement (Instr.jl v) := rfl
theorem je (v : Word) : Statement (Instr.je v) := rfl
theorem jne (v : Word) : Statement (Instr.jne v) := rfl
theorem jge (v : Word) : Statement (Instr.jge v) := rfl
theorem jg (v : Word) : Statement (Instr.jg v) := rfl
theorem call (v : Word) : Statement (Instr.call v) := rfl
theorem ret : Statement (Instr.ret) := rfl
theorem push (rA : Nybble) : Statement (Instr.push rA) := rfl
theorem pop (rA : Nybble) : Statement (Instr.pop rA) := rfl
theorem badSelectorMove (sel : Nybble) : Statement (Instr.badSelectorMove sel) := rfl
theorem illegalAluFunction (fn : Nybble) : Statement (Instr.illegalAluFunction fn) := rfl
theorem badSelectorJump (sel : Nybble) : Statement (Instr.badSelectorJump sel) := rfl
theorem illegalBaseOpcode (header : Byte) : Statement (Instr.illegalBaseOpcode header) := rfl

end Sys2Proof.Laws.EncodeLength
end

