-- ==== Sys2Proof/Laws/Step.lean ====
section
/-! SUPPORT. From the bytes in memory to the instruction executed, said once for each of the four formats
(30_encoding.md R81): a proof about an instruction gives the decoder's answer on its header and unfolds neither the
fetch nor the step. -/

namespace Sys2Proof.Machine

variable {s : State}

/-- The step of a running engine, by what its bytes at `PC` decode to. -/
theorem step_running (hf : s.fatal = none) (hs : s.stat = .run) :
    step s = (match decode s.fetchBytes with
      | .instr i _ => exec i s
      | .reject _ => .next (s.take .addressFault)) := by
  unfold step
  exact if_neg (by simp [State.stopped, hf, hs])

/-- The fetched bytes are the header and then the bytes after it, as far as memory and the longest instruction go. -/
theorem fetchBytes_cons (h : s.pc.toNat < s.cfg.memSize) :
    ∃ rest, s.fetchBytes = s.mem.read s.pc.toNat :: rest ∧
      ∀ k : Nat, rest[k]? =
        if k < 9 ∧ s.pc.toNat + 1 + k < s.cfg.memSize then some (s.mem.read (s.pc.toNat + 1 + k)) else none := by
  refine ⟨s.mem.bytesFrom s.cfg.memSize 9 (s.pc.toNat + 1), ?_, fun k => bytesFrom_getElem? ..⟩
  simp [State.fetchBytes, maxLength, Memory.bytesFrom, h]

/-- Format N. -/
theorem runsFrom_none {header : Byte → Prop} {i : Instr}
    (h : ∀ (b : Byte) (rest : List Byte), header b → decode (b :: rest) = .instr i rest) :
    runsFrom header 1 (fun _ _ _ => i) := by
  intro s hf hs hp hh
  obtain ⟨rest, hr, -⟩ := fetchBytes_cons hp
  refine ⟨fun _ => ?_, fun hl => absurd hl (by omega)⟩
  rw [step_running hf hs, hr, h _ _ hh]

/-- Format R. -/
theorem runsFrom_regs {header : Byte → Prop} {k : Nybble → Nybble → Instr}
    (h : ∀ (b : Byte) (rest : List Byte), header b → decode (b :: rest) = decodeRegs rest k) :
    runsFrom header 2 (fun rA rB _ => k rA rB) := by
  intro s hf hs hp hh
  obtain ⟨rest, hr, hget⟩ := fetchBytes_cons hp
  have h0 := hget 0
  rw [step_running hf hs, hr, h _ _ hh]
  cases rest with
  | nil => exact ⟨fun hl => absurd h0 (by simp; omega), fun _ => rfl⟩
  | cons rb rest =>
    simp only [List.getElem?_cons_zero, Nat.add_zero] at h0
    split at h0
    · rename_i hl
      obtain rfl := Option.some.inj h0
      exact ⟨fun _ => rfl, fun hl' => absurd hl' (by omega)⟩
    · simp at h0

/-- The word at an offset among bytes that are memory's. -/
theorem decodeWord_of_memory {m : Memory} {size a n : Nat} {bs : List Byte} (hn : 8 ≤ n)
    (h : ∀ k : Nat, bs[k]? = if k < n ∧ a + k < size then some (m.read (a + k)) else none) (f : Word → Instr) :
    (a + 8 ≤ size → ∃ rest, decodeWord bs f = .instr (f (m.word a)) rest) ∧
    (size < a + 8 → decodeWord bs f = .reject .noWord) := by
  constructor
  · intro hl
    have hlen : 8 ≤ bs.length := by
      by_contra hc
      have := h bs.length
      rw [if_pos (by omega)] at this
      simp at this
    match bs, hlen with
    | b0 :: b1 :: b2 :: b3 :: b4 :: b5 :: b6 :: b7 :: rest, _ =>
      refine ⟨rest, ?_⟩
      have e : ∀ i, i < 8 → (b0 :: b1 :: b2 :: b3 :: b4 :: b5 :: b6 :: b7 :: rest)[i]? = some (m.read (a + i)) := by
        intro i hi
        rw [h i, if_pos (by omega)]
      have e0 := Option.some.inj (e 0 (by omega))
      have e1 := Option.some.inj (e 1 (by omega))
      have e2 := Option.some.inj (e 2 (by omega))
      have e3 := Option.some.inj (e 3 (by omega))
      have e4 := Option.some.inj (e 4 (by omega))
      have e5 := Option.some.inj (e 5 (by omega))
      have e6 := Option.some.inj (e 6 (by omega))
      have e7 := Option.some.inj (e 7 (by omega))
      simp only [decodeWord, Memory.word, e0, e1, e2, e3, e4, e5, e6, e7, Nat.add_zero]
  · intro hl
    unfold decodeWord
    split
    · have := h 7
      rw [if_neg (by omega)] at this
      simp at this
    · rfl

/-- Format J. -/
theorem runsFrom_word {header : Byte → Prop} {k : Word → Instr}
    (h : ∀ (b : Byte) (rest : List Byte), header b → decode (b :: rest) = decodeWord rest k) :
    runsFrom header 9 (fun _ _ v => k v) := by
  intro s hf hs hp hh
  obtain ⟨rest, hr, hget⟩ := fetchBytes_cons hp
  have hw := decodeWord_of_memory (n := 9) (by omega) hget k
  rw [step_running hf hs, hr, h _ _ hh]
  refine ⟨fun hl => ?_, fun hl => ?_⟩
  · obtain ⟨r, e⟩ := hw.1 (by omega)
    rw [e]
    rfl
  · rw [hw.2 (by omega)]
    rfl

/-- Format M. -/
theorem runsFrom_regsWord {header : Byte → Prop} {k : Nybble → Nybble → Word → Instr}
    (h : ∀ (b : Byte) (rest : List Byte), header b → decode (b :: rest) = decodeRegsWord rest k) :
    runsFrom header 10 k := by
  intro s hf hs hp hh
  obtain ⟨rest, hr, hget⟩ := fetchBytes_cons hp
  have h0 := hget 0
  rw [step_running hf hs, hr, h _ _ hh]
  cases rest with
  | nil => exact ⟨fun hl => absurd h0 (by simp; omega), fun _ => rfl⟩
  | cons rb rest =>
    simp only [List.getElem?_cons_zero, Nat.add_zero] at h0
    split at h0
    · rename_i hl
      obtain rfl := Option.some.inj h0
      have hget' : ∀ j : Nat, rest[j]? = if j < 8 ∧ s.pc.toNat + 2 + j < s.cfg.memSize then
          some (s.mem.read (s.pc.toNat + 2 + j)) else none := by
        intro j
        have := hget (j + 1)
        rw [List.getElem?_cons_succ] at this
        rw [this, show s.pc.toNat + 1 + (j + 1) = s.pc.toNat + 2 + j by omega]
        congr 1
        simp only [eq_iff_iff]
        omega
      have hw := decodeWord_of_memory (n := 8) (by omega) hget' (k (hi (s.mem.read (s.pc.toNat + 1)))
        (lo (s.mem.read (s.pc.toNat + 1))))
      refine ⟨fun hl => ?_, fun hl => ?_⟩
      · obtain ⟨r, e⟩ := hw.1 (by omega)
        simp only [decodeRegsWord, e]
        rfl
      · simp only [decodeRegsWord, hw.2 (by omega)]
        rfl
    · simp at h0

end Sys2Proof.Machine
end

