-- ==== Sys2Proof/Tests/Slice0.lean ====
section
/-! SUPPORT. Tests, every expected value from 95_test_vectors.md (its id in the comment) or worked out by hand from the
rule named; and for each obligation with hypotheses a witness that meets them, one conjunct a clause, at the boundary
values of the clause (256 bytes of memory, registers 0 to 13). -/

/-- More bytes in memory. -/
def Sys2Proof.Machine.State.poke (s : Sys2Proof.Machine.State) (a : Nat) (bytes : List Sys2Proof.Byte) :
    Sys2Proof.Machine.State := { s with mem := Sys2Proof.Machine.Memory.writeBytes 256 s.mem a bytes }

/-- A state past the filling of the pipeline, with a window. -/
def Sys2Proof.Machine.State.issue (s : Sys2Proof.Machine.State) (w0 w1 w2 : Sys2Proof.Machine.Record) :
    Sys2Proof.Machine.State :=
  { s with sim := { s.sim with countdown := 0, win := ⟨w0, w1, w2⟩ } }

namespace Sys2Proof.Tests

open Sys2Proof Sys2Proof.Machine

/-! Small states. -/

/-- Reset with bytes at an address, `PC` there, some registers, and `CC`. -/
def at_ (pc : Word) (bytes : List Byte) (regs : List (Fin 14 × Word) := []) (cc : Byte := 0) : State where
  cfg := Config.default
  regs := regs.foldl (fun r e => r.set e.1.val e.2) State.reset.regs
  pc := pc
  cc := cc
  stat := .run
  fatal := none
  mem := Memory.writeBytes 256 [] pc.toNat bytes
  sim := StallSim.start

/-- The state in an outcome. -/
def stateOf (s : State) : Result → State
  | .next t => t
  | .fault r => nomatch r
  | .refused _ => s

/-- A word's eight bytes. -/
def w8 (v : Word) : List Byte := bytesOfWord v

/-! WellFormed: each of its four checks refuses an ill-formed term. -/

theorem test_wf_move_selector : (Instr.badSelectorMove 6).wellFormed = false := by decide
theorem test_wf_alu_function : (Instr.illegalAluFunction 3).wellFormed = false := by decide
theorem test_wf_jump_selector : (Instr.badSelectorJump 0).wellFormed = false := by decide
theorem test_wf_base_opcode : (Instr.illegalBaseOpcode 0xBF).wellFormed = false := by decide

/-! Decoding, from words written out (V-E1, V-E2, V-E3, V-E4, V-E5). -/

theorem test_decode_system :
    decode [0x00] = .instr .halt [] ∧ decode [0x10] = .instr .nop [] ∧ decode [0x0F] = .instr .halt [] ∧
    decode [0x1A, 0xFF] = .instr .nop [0xFF] := by decide

theorem test_decode_moves :
    decode [0x20, 0x12] = .instr (.rrmov 1 2) [] ∧ decode [0x21, 0x12] = .instr (.cmovle 1 2) [] ∧
    decode [0x22, 0x12] = .instr (.cmovl 1 2) [] ∧ decode [0x23, 0x12] = .instr (.cmove 1 2) [] ∧
    decode [0x24, 0x12] = .instr (.cmovne 1 2) [] ∧ decode [0x25, 0x12] = .instr (.cmovge 1 2) [] ∧
    decode [0x26, 0x12] = .instr (.cmovg 1 2) [] := by decide

theorem test_decode_memory :
    decode [0x30, 0xE3, 0x88, 0x77, 0x66, 0x55, 0x44, 0x33, 0x22, 0x11] =
      .instr (.irmov 3 0x1122334455667788) [] ∧
    decode [0x30, 0x53, 0xFF, 0xFF, 0xFF, 0xFF, 0xFF, 0xFF, 0xFF, 0xFF] =
      .instr (.irmov 3 0xFFFFFFFFFFFFFFFF) [] ∧
    decode [0x40, 0x12, 8, 0, 0, 0, 0, 0, 0, 0] = .instr (.rmmov 1 2 8) [] ∧
    decode [0x50, 0x12, 0xF8, 0xFF, 0xFF, 0xFF, 0xFF, 0xFF, 0xFF, 0xFF] =
      .instr (.mrmov 1 2 0xFFFFFFFFFFFFFFF8) [] := by decide

theorem test_decode_alu :
    decode [0x60, 0x01] = .instr (.add 0 1) [] ∧ decode [0x61, 0x01] = .instr (.sub 0 1) [] ∧
    decode [0x62, 0x01] = .instr (.and 0 1) [] ∧ decode [0x63, 0x01] = .instr (.xor 0 1) [] := by decide

theorem test_decode_jumps :
    decode [0x70, 0x40, 0, 0, 0, 0, 0, 0, 0] = .instr (.jmp 0x40) [] ∧
    decode [0x71, 0x40, 0, 0, 0, 0, 0, 0, 0] = .instr (.jle 0x40) [] ∧
    decode [0x72, 0x40, 0, 0, 0, 0, 0, 0, 0] = .instr (.jl 0x40) [] ∧
    decode [0x73, 0x40, 0, 0, 0, 0, 0, 0, 0] = .instr (.je 0x40) [] ∧
    decode [0x74, 0x40, 0, 0, 0, 0, 0, 0, 0] = .instr (.jne 0x40) [] ∧
    decode [0x75, 0x40, 0, 0, 0, 0, 0, 0, 0] = .instr (.jge 0x40) [] ∧
    decode [0x76, 0x40, 0, 0, 0, 0, 0, 0, 0] = .instr (.jg 0x40) [] := by decide

theorem test_decode_stack :
    decode [0x80, 0x40, 0, 0, 0, 0, 0, 0, 0] = .instr (.call 0x40) [] ∧
    decode [0x85, 0x40, 0, 0, 0, 0, 0, 0, 0] = .instr (.call 0x40) [] ∧
    decode [0x90] = .instr .ret [] ∧ decode [0x9C] = .instr .ret [] ∧
    decode [0xA0, 0x2E] = .instr (.push 2) [] ∧ decode [0xA0, 0x27] = .instr (.push 2) [] ∧
    decode [0xB0, 0x2E] = .instr (.pop 2) [] := by decide

theorem test_decode_no_instruction :
    decode [0x27, 0x01] = .instr (.badSelectorMove 7) [0x01] ∧ decode [0x2F] = .instr (.badSelectorMove 15) [] ∧
    decode [0x64, 0x01] = .instr (.illegalAluFunction 4) [0x01] ∧ decode [0x6F] = .instr (.illegalAluFunction 15) [] ∧
    decode [0x77] = .instr (.badSelectorJump 7) [] ∧ decode [0x7F] = .instr (.badSelectorJump 15) [] ∧
    decode [0xC0] = .instr (.illegalBaseOpcode 0xC0) [] ∧ decode [0xD7] = .instr (.illegalBaseOpcode 0xD7) [] ∧
    decode [0xFF] = .instr (.illegalBaseOpcode 0xFF) [] := by decide

/-- 30_encoding.md R92: a byte the instruction needs and that is not there. -/
theorem test_decode_rejects :
    decode [] = .reject .noHeader ∧ decode [0x60] = .reject .noRegisterByte ∧
    decode [0x30, 0xE3, 0, 0, 0, 0, 0, 0, 0] = .reject .noWord ∧ decode [0x80] = .reject .noWord := by decide

/-- V-E6: 64 header values with an illegal high nybble, 12 illegal ALU functions, 18 bad selectors. -/
theorem test_decode_counts :
    ((List.range 256).filter (fun n => decide (illegalHeader (BitVec.ofNat 8 n)))).length = 76 ∧
    ((List.range 256).filter (fun n => decide (badSelectorHeader (BitVec.ofNat 8 n)))).length = 18 := by decide

/-- The table numbers byte 1 as bits 15 to 8: `61 23` is sub r2, r3. -/
theorem test_decode_table_word : decodeTableWord 16 0x2361 = some (.sub 2 3) := by decide

/-- The next step after reset runs the word placed: `30 E3` and an operand of zeros. -/
theorem test_withFetchWord :
    decode (State.reset.withFetchWord 16 0xE330).fetchBytes = .instr (.irmov 3 0) [] ∧
    (stepState (State.reset.withFetchWord 16 0xE330)).pc = 10 := by decide

/-! halt, nop, the header bytes that are no instruction. -/

/-- V-X1. -/
theorem test_halt :
    let t := stepState (at_ 0x10 [0x00])
    t.stat = .hlt ∧ t.pc = 0x10 := by decide

/-- V-X2. -/
theorem test_nop : let t := stepState (at_ 0x10 [0x10]); t.pc = 0x11 ∧ t.stat = .run := by decide

/-- V-X3. -/
theorem test_nop_last_byte : let t := stepState (at_ 0xFF [0x10]); t.pc = 0xFF ∧ t.stat = .adr := by decide

/-- V-X4. -/
theorem test_illegal_base_opcode : let t := stepState (at_ 0x10 [0xC0]); t.pc = 0x10 ∧ t.stat = .ins := by decide

/-- V-E7, `64` at the last byte of memory. -/
theorem test_illegal_alu_function : let t := stepState (at_ 0xFF [0x64]); t.pc = 0xFF ∧ t.stat = .ins := by decide

/-- V-X5. -/
theorem test_bad_selector_move :
    let t := stepState (at_ 0x10 [0x27, 0x01] [(0, 5), (1, 6)])
    t.fatal = some ⟨0x10, 7⟩ ∧ t.stat = .run ∧ t.pc = 0x10 ∧ t.regs[1] = 6 := by decide

/-- V-X6. -/
theorem test_bad_selector_jump :
    let t := stepState (at_ 0x10 [0x7F, 0x20, 0, 0, 0, 0, 0, 0, 0])
    t.fatal = some ⟨0x10, 15⟩ ∧ t.stat = .run ∧ t.pc = 0x10 := by decide

/-! The ALU. -/

/-- V-A1. -/
theorem test_add_overflow :
    let t := stepState (at_ 0 [0x60, 0x01] [(0, 0x7FFFFFFFFFFFFFFF), (1, 1)])
    t.regs[1] = 0x8000000000000000 ∧ t.cc = 0x03 ∧ t.pc = 2 := by decide

/-- V-A39. -/
theorem test_add_at_end :
    let t := stepState (at_ 0xFE [0x60, 0x01] [(0, 1), (1, 7)] 0x05)
    t.regs[1] = 8 ∧ t.cc = 0x00 ∧ t.pc = 0xFE ∧ t.stat = .adr := by decide

/-- V-A30. -/
theorem test_sub_order :
    let t := stepState (at_ 0 [0x61, 0x01] [(0, 3), (1, 10)] 0x04)
    t.regs[1] = 7 ∧ t.regs[0] = 3 ∧ t.cc = 0x00 := by decide

/-- V-A11. -/
theorem test_sub_overflow :
    let t := stepState (at_ 0 [0x61, 0x01] [(0, 1), (1, 0x8000000000000000)])
    t.regs[1] = 0x7FFFFFFFFFFFFFFF ∧ t.cc = 0x01 := by decide

/-- V-A20. -/
theorem test_and :
    let t := stepState (at_ 0 [0x62, 0x01] [(0, 0xF0F0), (1, 0x0FF0)])
    t.regs[1] = 0xF0 ∧ t.cc = 0x00 := by decide

/-- V-A34. -/
theorem test_and_same :
    let t := stepState (at_ 0 [0x62, 0x11] [(1, 0x8000000000000000)] 0x01)
    t.regs[1] = 0x8000000000000000 ∧ t.cc = 0x02 := by decide

/-- V-A26. -/
theorem test_xor :
    let t := stepState (at_ 0 [0x63, 0x01] [(0, 0x0F), (1, 0xF0)])
    t.regs[1] = 0xFF ∧ t.cc = 0x00 := by decide

/-- V-A33. -/
theorem test_xor_same : let t := stepState (at_ 0 [0x63, 0x11] [(1, 7)] 0x01); t.regs[1] = 0 ∧ t.cc = 0x04 := by decide

/-! Conditions and the instructions that ask them. -/

/-- V-C1: the 56 cases, a row for each `CC` from 0 to 7. -/
theorem test_conditions :
    (List.range 8).map (fun n => [Cond.always, .le, .l, .e, .ne, .ge, .g].map (condHolds · (BitVec.ofNat 8 n))) =
      [[true, false, false, false, true, true, true],
       [true, true, true, false, true, false, false],
       [true, true, true, false, true, false, false],
       [true, false, false, false, true, true, true],
       [true, true, false, true, false, true, false],
       [true, true, true, true, false, false, false],
       [true, true, true, true, false, false, false],
       [true, true, false, true, false, true, false]] := by decide

/-- V-C2. -/
theorem test_conditions_upper_bits :
    [Cond.always, .le, .l, .e, .ne, .ge, .g].map (condHolds · 0xFC) = [true, true, false, true, false, true, false] := by
  decide

/-- V-M1. -/
theorem test_rrmov : let t := stepState (at_ 0 [0x20, 0x01] [(0, 5), (1, 6)]); t.regs[1] = 5 ∧ t.pc = 2 := by decide

/-- V-M5b. -/
theorem test_rrmov_no_register :
    let t := stepState (at_ 0 [0x20, 0x0E] [(0, 5)]); t.stat = .adr ∧ t.pc = 2 := by decide

/-- V-C1 by 43_moves.md R182: le holds at 0x02 and not at 0x00. -/
theorem test_cmovle :
    (stepState (at_ 0 [0x21, 0x01] [(0, 5), (1, 6)] 0x02)).regs[1] = 5 ∧
    (stepState (at_ 0 [0x21, 0x01] [(0, 5), (1, 6)] 0x00)).regs[1] = 6 := by decide

/-- V-C1 by 43_moves.md R183: l holds at 0x01 and not at 0x04. -/
theorem test_cmovl :
    (stepState (at_ 0 [0x22, 0x01] [(0, 5), (1, 6)] 0x01)).regs[1] = 5 ∧
    (stepState (at_ 0 [0x22, 0x01] [(0, 5), (1, 6)] 0x04)).regs[1] = 6 := by decide

/-- V-M3, and its other case by V-C1. -/
theorem test_cmove :
    (stepState (at_ 0 [0x23, 0x01] [(0, 5), (1, 6)] 0x04)).regs[1] = 5 ∧
    (stepState (at_ 0 [0x23, 0x01] [(0, 5), (1, 6)] 0x00)).regs[1] = 6 := by decide

/-- V-M2. -/
theorem test_cmovne : let t := stepState (at_ 0 [0x24, 0x01] [(0, 5), (1, 6)] 0x04); t.regs[1] = 6 ∧ t.pc = 2 := by
  decide

/-- V-M4, V-M5. -/
theorem test_cmovne_no_register :
    (let t := stepState (at_ 0 [0x24, 0xFE] [] 0x04); t.stat = .run ∧ t.pc = 2) ∧
    (let t := stepState (at_ 0 [0x24, 0xE1] [(1, 6)] 0x00); t.stat = .adr ∧ t.pc = 2 ∧ t.regs[1] = 6) := by decide

/-- V-C1 by 43_moves.md R186: ge holds at 0x03 and not at 0x05. -/
theorem test_cmovge :
    (stepState (at_ 0 [0x25, 0x01] [(0, 5), (1, 6)] 0x03)).regs[1] = 5 ∧
    (stepState (at_ 0 [0x25, 0x01] [(0, 5), (1, 6)] 0x05)).regs[1] = 6 := by decide

/-- V-C1 by 43_moves.md R187: g holds at 0x00 and not at 0x04. -/
theorem test_cmovg :
    (stepState (at_ 0 [0x26, 0x01] [(0, 5), (1, 6)] 0x00)).regs[1] = 5 ∧
    (stepState (at_ 0 [0x26, 0x01] [(0, 5), (1, 6)] 0x04)).regs[1] = 6 := by decide

/-- V-J1, V-J5. -/
theorem test_jmp :
    (stepState (at_ 0 (0x70 :: w8 0x40))).pc = 0x40 ∧ (stepState (at_ 0 (0x70 :: w8 0xFF))).pc = 0xFF := by decide

/-- V-J4. -/
theorem test_jmp_outside : let t := stepState (at_ 0 (0x70 :: w8 0x100)); t.stat = .adr ∧ t.pc = 0 := by decide

/-- V-J11: `71` at 0x04 and 0x03. -/
theorem test_jle :
    (stepState (at_ 0 (0x71 :: w8 0x40) [] 0x04)).pc = 0x40 ∧
    (stepState (at_ 0 (0x71 :: w8 0x40) [] 0x03)).pc = 9 := by decide

/-- V-J11: `72` at 0x02 and 0x04. -/
theorem test_jl :
    (stepState (at_ 0 (0x72 :: w8 0x40) [] 0x02)).pc = 0x40 ∧
    (stepState (at_ 0 (0x72 :: w8 0x40) [] 0x04)).pc = 9 := by decide

/-- V-J2, V-J3. -/
theorem test_je :
    (stepState (at_ 0 (0x73 :: w8 0x40) [] 0x04)).pc = 0x40 ∧
    (stepState (at_ 0 (0x73 :: w8 0x40) [] 0x00)).pc = 9 := by decide

/-- V-J7, V-J8: at the end of memory, not taken and taken. -/
theorem test_je_at_end :
    (let t := stepState (at_ 0xF7 (0x73 :: w8 0) [] 0x00); t.stat = .adr ∧ t.pc = 0xF7) ∧
    (let t := stepState (at_ 0xF7 (0x73 :: w8 0) [] 0x04); t.stat = .run ∧ t.pc = 0) := by decide

/-- V-J11: `74` at 0x01 and 0x05. -/
theorem test_jne :
    (stepState (at_ 0 (0x74 :: w8 0x40) [] 0x01)).pc = 0x40 ∧
    (stepState (at_ 0 (0x74 :: w8 0x40) [] 0x05)).pc = 9 := by decide

/-- V-J11: `75` at 0x07 and 0x06. -/
theorem test_jge :
    (stepState (at_ 0 (0x75 :: w8 0x40) [] 0x07)).pc = 0x40 ∧
    (stepState (at_ 0 (0x75 :: w8 0x40) [] 0x06)).pc = 9 := by decide

/-- V-J11: `76` at 0x03 and 0x07. -/
theorem test_jg :
    (stepState (at_ 0 (0x76 :: w8 0x40) [] 0x03)).pc = 0x40 ∧
    (stepState (at_ 0 (0x76 :: w8 0x40) [] 0x07)).pc = 9 := by decide

/-! Memory and stack. -/

/-- V-M6. -/
theorem test_irmov :
    let t := stepState (at_ 0 [0x30, 0xE3, 0x88, 0x77, 0x66, 0x55, 0x44, 0x33, 0x22, 0x11] [(3, 1)])
    t.regs[3] = 0x1122334455667788 ∧ t.pc = 0xA := by decide

/-- V-M8, V-M9. -/
theorem test_irmov_at_end :
    (let t := stepState (at_ 0xF6 (0x30 :: 0xE3 :: w8 7) [(3, 1)])
     t.stat = .adr ∧ t.pc = 0xF6 ∧ t.regs[3] = 7) ∧
    (let t := stepState (at_ 0xF7 (0x30 :: 0xE3 :: w8 7) [(3, 1)])
     t.stat = .adr ∧ t.pc = 0xF7 ∧ t.regs[3] = 1) := by decide

/-- V-M10. -/
theorem test_rmmov :
    let t := stepState (at_ 0 (0x40 :: 0x12 :: w8 8) [(1, 0x1122334455667788), (2, 0x80)])
    (List.range 8).map (fun i => t.mem.read (0x88 + i)) = [0x88, 0x77, 0x66, 0x55, 0x44, 0x33, 0x22, 0x11] ∧
      t.pc = 0xA := by decide

/-- V-M13. -/
theorem test_rmmov_straddles :
    let t := stepState (at_ 0 (0x40 :: 0x12 :: w8 9) [(1, 0xAA), (2, 0xF0)])
    t.stat = .adr ∧ t.pc = 0 ∧ t.mem.read 0xF9 = 0 := by decide

/-- V-M11. -/
theorem test_mrmov :
    let t := stepState ((at_ 0 (0x50 :: 0x12 :: w8 0xFFFFFFFFFFFFFFF8) [(2, 0x80)]).poke 0x78
      [0xEF, 0xCD, 0xAB, 0x89, 0x67, 0x45, 0x23, 0x01])
    t.regs[1] = 0x0123456789ABCDEF ∧ t.pc = 0xA := by decide

/-- V-M15. -/
theorem test_mrmov_same :
    (stepState ((at_ 0 (0x50 :: 0x22 :: w8 0) [(2, 0x20)]).poke 0x20 [0x77])).regs[2] = 0x77 := by decide

/-- V-K1, the call. -/
theorem test_call :
    let t := stepState (at_ 0x10 (0x80 :: w8 0x40) [(4, 0x80)])
    t.regs[4] = 0x78 ∧ t.readWord 0x78 = some 0x19 ∧ t.pc = 0x40 := by decide

/-- V-K8: the return address over the instruction's own bytes. -/
theorem test_call_over_itself :
    let t := stepState (at_ 0x10 (0x80 :: w8 0x10) [(4, 0x18)])
    t.mem.read 0x10 = 0x19 ∧ t.mem.read 0x11 = 0 ∧ t.mem.read 0x18 = 0 ∧ t.regs[4] = 0x10 := by decide

/-- V-K7. -/
theorem test_ret :
    let t := stepState ((at_ 0x10 [0x90] [(4, 0xF8)]).poke 0xF8 [0x20])
    t.pc = 0x20 ∧ t.regs[4] = 0x100 := by decide

/-- V-K5. -/
theorem test_ret_outside :
    let t := stepState ((at_ 0x10 [0x90] [(4, 0x80)]).poke 0x80 (w8 0x100))
    t.stat = .adr ∧ t.pc = 0x10 ∧ t.regs[4] = 0x80 := by decide

/-- V-K9. -/
theorem test_push :
    let t := stepState (at_ 0 [0xA0, 0x2E] [(4, 0x80), (2, 0x1234)])
    t.regs[4] = 0x78 ∧ t.readWord 0x78 = some 0x1234 ∧ t.pc = 2 := by decide

/-- V-K11, and V-K13. -/
theorem test_push_stack_pointer :
    (stepState (at_ 0 [0xA0, 0x4E] [(4, 0x80)])).readWord 0x78 = some 0x78 ∧
    (let t := stepState (at_ 0 [0xA0, 0x2E]); t.stat = .adr ∧ t.regs[4] = 0xFFFFFFFFFFFFFFF8) := by decide

/-- V-K10. -/
theorem test_pop :
    let t := stepState ((at_ 0 [0xB0, 0x2E] [(4, 0x80)]).poke 0x80 [0x99])
    t.regs[2] = 0x99 ∧ t.regs[4] = 0x88 ∧ t.pc = 2 := by decide

/-- V-K12, and V-K16. -/
theorem test_pop_stack_pointer :
    (stepState ((at_ 0 [0xB0, 0x4E] [(4, 0x80)]).poke 0x80 [0x99])).regs[4] = 0x88 ∧
    (let t := stepState ((at_ 0 [0xB0, 0xFE] [(4, 0x80)]).poke 0x80 [0x99]); t.stat = .adr ∧ t.regs[4] = 0x80) := by
  decide

/-! The hazard simulator and the driver. -/

/-- V-S1. -/
theorem test_tick_startup : (ticks 5 (at_ 0 [0x10, 0x00])).1 = [.stall, .stall, .stall, .stall, .proceed] := by decide

/-- V-S2, cycle 6. -/
theorem test_tick_data_hazard :
    let r := tick ((at_ 2 [0x60, 0x12]).issue ⟨0xE, 1⟩ .none .none)
    r.1 = .stall ∧ r.2.sim = ⟨⟨.none, ⟨0xE, 1⟩, .none⟩, 2, true, ⟨0xE, 2⟩⟩ := by decide

/-- V-S3 (b): the single bubble is the first and the final one. -/
theorem test_tick_single_bubble :
    (tick ((at_ 4 [0x60, 0x12]).issue .none .none ⟨0xE, 1⟩)).2.sim.win = ⟨⟨0xE, 2⟩, .none, .none⟩ := by decide

/-- V-S4: `jne` not taken, both policies. -/
theorem test_tick_jump_policies :
    (tick ((at_ 1 (0x74 :: w8 0x0B) [] 0x04).issue .none .none .none)).1 = .stall ∧
    (tick { (at_ 1 (0x74 :: w8 0x0B) [] 0x04).issue .none .none .none with
      cfg := { Config.default with jxxPolicy := .takenOnly } }).1 = .proceed := by decide

/-- V-S9: `27` at the last byte. -/
theorem test_tick_peek_fails :
    let r := tick ((at_ 0xFF [0x27]).issue .none .none .none)
    r.1 = .stall ∧ r.2.stat = .adr ∧ r.2.fatal = none := by decide

/-- V-S12: the nybble 0xF matches, the nybble 0xE does not. -/
theorem test_tick_no_register_nybbles :
    (tick ((at_ 0 [0x60, 0xF1]).issue ⟨0xF, 0xE⟩ .none .none)).1 = .stall ∧
    (tick ((at_ 0 [0x60, 0xE1]).issue .none ⟨0xE, 2⟩ .none)).1 = .proceed := by decide

/-- 10_state.md R33. -/
theorem test_status_codes : [RunStatus.run, .hlt, .adr, .ins].map RunStatus.code = [0, 1, 2, 3] := by decide

/-- 42_engine_step.md R155, 10_state.md R34: writing `STAT` back does not clear `FATAL`; a step reports it. -/
theorem test_driver_fatal :
    let t := stepState (at_ 0x10 [0x27])
    (drive (.writeStat .run) t).2.fatal = some ⟨0x10, 7⟩ ∧ (drive .step t).1 = .fatal ⟨0x10, 7⟩ ∧
    (drive .readFatal t).1 = .latch (some ⟨0x10, 7⟩) ∧ (drive .readFatal State.reset).1 = .latch none := by decide

/-! Witnesses. -/

theorem witness_DecodeInvertsEncode :
    (Instr.badSelectorMove 7).wellFormed = true ∧ (Instr.illegalAluFunction 4).wellFormed = true ∧
    (Instr.badSelectorJump 15).wellFormed = true ∧ (Instr.illegalBaseOpcode 0xC0).wellFormed = true ∧
    (Instr.mrmov 15 15 0xFFFFFFFFFFFFFFFF).wellFormed = true := by decide

theorem witness_DecodeTakesTheLength : decode [0x60, 0x01, 0xAA] = .instr (.add 0 1) [0xAA] := by decide

theorem witness_DecodeRejectsOnlyMissingBytes :
    decode [0x50, 0x12, 0, 0, 0, 0, 0, 0, 0] = .reject .noWord ∧
    [0x12, 0, 0, 0, 0, 0, 0, 0].length + 1 < headerLength 0x50 ∧ ¬ [(0 : Byte)].length + 1 < headerLength 0xA0 := by
  decide

theorem witness_PaddingIsIgnored :
    hi 0xB0 = hi 0xBF ∧ (hi 0xB0).toNat ∈ [0x0, 0x1, 0x3, 0x4, 0x5, 0x8, 0x9, 0xA, 0xB] ∧
    (hi 0x30).toNat = 0x3 ∧ (hi 0xA0).toNat = 0xA ∧ (hi 0xB5).toNat = 0xB := by decide

theorem witness_StepRunsTheDecodedInstruction :
    (at_ 0xFE [0x60, 0x01]).fatal = none ∧ (at_ 0xFE [0x60, 0x01]).stat = .run ∧
    decode (at_ 0xFE [0x60, 0x01]).fetchBytes = .instr (.add 0 1) [] := by decide

theorem witness_StepRunsTheBytesAtPc :
    let s := at_ 0xF6 (0x30 :: 0xE3 :: w8 7)
    s.fatal = none ∧ s.stat = .run ∧ (Instr.irmov 3 7).wellFormed = true ∧
    s.pc.toNat + (encode (.irmov 3 7)).length = s.cfg.memSize ∧
    ∀ (k : Nat) (b : Byte), (encode (.irmov 3 7))[k]? = some b → s.mem.read (s.pc.toNat + k) = b := by
  refine ⟨by decide, by decide, by decide, by decide, fun k b h => ?_⟩
  obtain ⟨hk, -⟩ := List.getElem?_eq_some_iff.1 h
  have key : ∀ k : Fin 10, (encode (.irmov 3 7))[k.val]? =
      some ((at_ 0xF6 (0x30 :: 0xE3 :: w8 7)).mem.read (0xF6 + k.val)) := by decide
  exact Option.some.inj ((key ⟨k, hk⟩).symm.trans h)

theorem witness_MissingInstructionByteFaults :
    (let s := { State.reset with pc := 0x100 }
     s.fatal = none ∧ s.stat = .run ∧ s.cfg.memSize ≤ s.pc.toNat) ∧
    (let s := at_ 0xFF [0x60]
     s.fatal = none ∧ s.stat = .run ∧ s.cfg.memSize < s.pc.toNat + headerLength (s.mem.read s.pc.toNat)) := by decide

theorem witness_StoppedEngineDoesNothing :
    { State.reset with stat := RunStatus.hlt }.stat ≠ .run ∧ { State.reset with stat := RunStatus.adr }.stat ≠ .run ∧
    { State.reset with stat := RunStatus.ins }.stat ≠ .run ∧
    { State.reset with fatal := some ⟨0, 7⟩ }.fatal.isSome = true := by decide

theorem witness_StepAgreesWithThePseudocode :
    (at_ 0xFF [0x60]).Inv ∧ (at_ 0xFF [0x60]).cfg.spOperand = .adjusted := by decide

theorem witness_StepKeepsTheInvariant :
    (at_ 0x10 (0x80 :: w8 0x40) [(4, 0x80)]).Inv ∧
    ∃ t, step (at_ 0x10 (0x80 :: w8 0x40) [(4, 0x80)]) = .next t ∧ t.pc = 0x40 :=
  ⟨by decide, stepState (at_ 0x10 (0x80 :: w8 0x40) [(4, 0x80)]), rfl, by decide⟩

/-- A halt, an illegal header, a bad selector, each of them the header of a running state's next step. -/
theorem witness_StepEndsAsTheHeaderSays :
    (let s := at_ 0xFF [0x0F]
     s.fatal = none ∧ s.stat = .run ∧ s.pc.toNat < s.cfg.memSize ∧ hi (s.mem.read s.pc.toNat) = 0) ∧
    (let s := at_ 0xFF [0x6F]
     s.fatal = none ∧ s.stat = .run ∧ s.pc.toNat < s.cfg.memSize ∧ illegalHeader (s.mem.read s.pc.toNat)) ∧
    (let s := at_ 0xFF [0x77]
     s.fatal = none ∧ s.stat = .run ∧ s.pc.toNat < s.cfg.memSize ∧ badSelectorHeader (s.mem.read s.pc.toNat)) ∧
    ∃ t, step (at_ 0xFF [0x0F]) = .next t ∧ t.stat = .hlt :=
  ⟨by decide, by decide, by decide, stepState (at_ 0xFF [0x0F]), rfl, by decide⟩

theorem witness_OnlyAluWritesTheFlags :
    (13 : Nybble).toNat < 14 ∧ (0 : Nybble).toNat < 14 ∧ ∃ t, step (at_ 0 [0x63, 0x11] [] 0x01) = .next t ∧ t.cc ≠ (at_ 0 [0x63, 0x11] [] 0x01).cc :=
  ⟨by decide, by decide, stepState (at_ 0 [0x63, 0x11] [] 0x01), rfl, by decide⟩

theorem witness_OnlyStoresChangeMemory :
    ∃ t, step (at_ 0 [0xA0, 0x2E] [(4, 0x80), (2, 1)]) = .next t ∧
      t.mem ≠ (at_ 0 [0xA0, 0x2E] [(4, 0x80), (2, 1)]).mem :=
  ⟨stepState (at_ 0 [0xA0, 0x2E] [(4, 0x80), (2, 1)]), rfl, by decide⟩

theorem witness_StepIgnoresTheHazardSimulator :
    ∃ t, step (at_ 0 [0x10]) = .next t ∧ t.pc = 1 := ⟨stepState (at_ 0 [0x10]), rfl, by decide⟩

theorem witness_HaltSetsTheStatusOnly :
    let s := at_ 0xFF [0x0F]
    s.fatal = none ∧ s.stat = .run ∧ s.pc.toNat < s.cfg.memSize ∧ hi (s.mem.read s.pc.toNat) = 0 := by decide

theorem witness_NopAdvancesByOne :
    ((at_ 0xFE [0x10]).pc + 1).toNat + 1 = (at_ 0xFE [0x10]).cfg.memSize ∧
    (at_ 0xFF [0x10]).cfg.memSize = ((at_ 0xFF [0x10]).pc + 1).toNat ∧
    (let s := at_ 0xFF [0x1A]
     s.fatal = none ∧ s.stat = .run ∧ s.pc.toNat < s.cfg.memSize ∧ hi (s.mem.read s.pc.toNat) = 1) := by decide

theorem witness_IllegalBaseOpcodeFaults :
    let s := at_ 0xFF [0xC0]
    s.fatal = none ∧ s.stat = .run ∧ s.pc.toNat < s.cfg.memSize ∧ 0xC ≤ (hi (s.mem.read s.pc.toNat)).toNat := by decide

theorem witness_IllegalAluFunctionFaults :
    let s := at_ 0xFF [0x64]
    s.fatal = none ∧ s.stat = .run ∧ s.pc.toNat < s.cfg.memSize ∧ 0x64 ≤ (s.mem.read s.pc.toNat).toNat ∧
      (s.mem.read s.pc.toNat).toNat ≤ 0x6F := by decide

theorem witness_BadSelectorIsFatal :
    ∀ b ∈ [(0x27 : Byte), 0x2F, 0x77, 0x7F], (at_ 0xFF [b]).fatal = none ∧ (at_ 0xFF [b]).stat = .run ∧
      (at_ 0xFF [b]).pc.toNat < (at_ 0xFF [b]).cfg.memSize ∧
      badSelectorHeader ((at_ 0xFF [b]).mem.read (at_ 0xFF [b]).pc.toNat) := by decide

/-- Of `runsFrom`, for its four lengths: a header of each format whose instruction ends with memory, and one byte
further on. -/
theorem witness_RunsFrom :
    ∀ e ∈ [((0x90 : Byte), 1), (0x60, 2), (0x26, 2), (0xA0, 2), (0xB7, 2), (0x70, 9), (0x80, 9), (0x30, 10), (0x40, 10),
        (0x5F, 10)],
      let s := at_ (BitVec.ofNat 64 (256 - e.2)) [e.1]
      let t := at_ (BitVec.ofNat 64 (257 - e.2)) [e.1]
      s.fatal = none ∧ s.stat = .run ∧ s.pc.toNat < s.cfg.memSize ∧ s.mem.read s.pc.toNat = e.1 ∧
        s.pc.toNat + e.2 = s.cfg.memSize ∧
        (1 < e.2 → t.pc.toNat < t.cfg.memSize ∧ t.mem.read t.pc.toNat = e.1 ∧ t.cfg.memSize + 1 = t.pc.toNat + e.2) := by
  decide

/-- Of `aluInstrDoes`: the highest register number, the last `PC` that goes on, the first that faults, and the two
nybbles that name no register. The flag clauses are under the same hypotheses. -/
theorem witness_AluInstr :
    (at_ 0 [0x60, 0xDD] [(13, 7)]).readReg 13 = some 7 ∧
    ((at_ 0xFD [0x60, 0x01]).pc + 2).toNat + 1 = (at_ 0xFD [0x60, 0x01]).cfg.memSize ∧
    (at_ 0xFE [0x60, 0x01]).cfg.memSize = ((at_ 0xFE [0x60, 0x01]).pc + 2).toNat ∧
    14 ≤ (0xE : Nybble).toNat ∧ 14 ≤ (0xF : Nybble).toNat := by decide

theorem witness_AddWritesSumAndFlags :
    (at_ 0 [0x60, 0x01] [(0, 0x7FFFFFFFFFFFFFFF), (1, 1)]).readReg 0 = some 0x7FFFFFFFFFFFFFFF ∧
    (at_ 0 [0x60, 0x01] [(0, 0x7FFFFFFFFFFFFFFF), (1, 1)]).readReg 1 = some 1 ∧
    sign 0x7FFFFFFFFFFFFFFF = sign 1 ∧ sign (0x7FFFFFFFFFFFFFFF + 1) ≠ sign 0x7FFFFFFFFFFFFFFF := by decide

theorem witness_SubWritesDifferenceAndFlags :
    (at_ 0 [0x61, 0x01] [(0, 1), (1, 0x8000000000000000)]).readReg 0 = some 1 ∧
    (at_ 0 [0x61, 0x01] [(0, 1), (1, 0x8000000000000000)]).readReg 1 = some 0x8000000000000000 ∧
    sign 1 ≠ sign 0x8000000000000000 ∧ sign (0x8000000000000000 - 1) ≠ sign 0x8000000000000000 := by decide

theorem witness_AndWritesConjunctionAndFlags :
    (at_ 0xFD [0x62, 0x01] [(0, 0xAAAA), (1, 0x5555)]).readReg 0 = some 0xAAAA ∧
    (at_ 0xFD [0x62, 0x01] [(0, 0xAAAA), (1, 0x5555)]).readReg 1 = some 0x5555 := by decide

theorem witness_XorWritesExclusiveOrAndFlags :
    (at_ 0xFE [0x63, 0x0D] [(0, 0xF), (13, 0xF0)]).readReg 0 = some 0xF ∧
    (at_ 0xFE [0x63, 0x0D] [(0, 0xF), (13, 0xF0)]).readReg 13 = some 0xF0 := by decide

theorem witness_OverflowFlagIsExact :
    let s := at_ 0xFE [0x60, 0x01] [(0, 0x7FFFFFFFFFFFFFFF), (1, 1)]
    s.readReg 0 = some 0x7FFFFFFFFFFFFFFF ∧ s.readReg 1 = some 1 ∧
    (∃ t, exec (.add 0 1) s = .next t ∧ ofFlag t.cc = true) ∧ (∃ t, exec (.sub 0 1) s = .next t ∧ ofFlag t.cc = false) :=
  ⟨by decide, by decide,
   ⟨stateOf State.reset (exec (.add 0 1) (at_ 0xFE [0x60, 0x01] [(0, 0x7FFFFFFFFFFFFFFF), (1, 1)])), rfl, by decide⟩,
   ⟨stateOf State.reset (exec (.sub 0 1) (at_ 0xFE [0x60, 0x01] [(0, 0x7FFFFFFFFFFFFFFF), (1, 1)])), rfl, by decide⟩⟩

/-- V-C4: the smallest integer is less than 1 although the difference is positive. -/
theorem witness_ConditionsAfterSubCompareSigned :
    let s := at_ 0 [0x61, 0x01] [(0, 1), (1, 0x8000000000000000)]
    s.readReg 0 = some 1 ∧ s.readReg 1 = some 0x8000000000000000 ∧
    ∃ t, exec (.sub 0 1) s = .next t ∧ condHolds .l t.cc = true :=
  ⟨by decide, by decide,
   stateOf State.reset (exec (.sub 0 1) (at_ 0 [0x61, 0x01] [(0, 1), (1, 0x8000000000000000)])), rfl, by decide⟩

/-- Both ends of the range, the second at the end of memory: 1 + 1 sets no flag, twice the smallest integer is 0 by
overflow. -/
theorem witness_AluFlagBytesAreTheReachableOnes :
    (13 : Nybble).toNat < 14 ∧ (0 : Nybble) ≠ 13 ∧ (5 : Nat) ≤ 5 ∧ (0 : Nat) ≤ 5 ∧
    (∃ t, exec (.add 0 13) (at_ 0 [0x60, 0x0D] [(0, 1), (13, 1)]) = .next t ∧ t.cc = 0) ∧
    (∃ t, exec (.add 0 13) (at_ 0xFE [0x60, 0x0D] [(0, 0x8000000000000000), (13, 0x8000000000000000)]) = .next t ∧ t.cc = 5) :=
  ⟨by decide, by decide, by decide, by decide,
   ⟨stateOf State.reset (exec (.add 0 13) (at_ 0 [0x60, 0x0D] [(0, 1), (13, 1)])), rfl, by decide⟩,
   ⟨stateOf State.reset (exec (.add 0 13) (at_ 0xFE [0x60, 0x0D] [(0, 0x8000000000000000), (13, 0x8000000000000000)])),
    rfl, by decide⟩⟩

/-- Of `moveInstrDoes`: the first `PC` that faults, the last that goes on, the condition false and true for each of
the six that ask it, the highest register number, and a nybble that names no register. -/
theorem witness_ConditionalMovesCopyWhenTheConditionHolds :
    (at_ 0xFE [0x20, 0x01]).cfg.memSize = ((at_ 0xFE [0x20, 0x01]).pc + 2).toNat ∧
    ((at_ 0xFD [0x20, 0x01]).pc + 2).toNat + 1 = (at_ 0xFD [0x20, 0x01]).cfg.memSize ∧
    (∀ c ∈ [Cond.le, .l, .e, .ne, .ge, .g], (∃ n : Fin 8, condHolds c (BitVec.ofNat 8 n.val) = false) ∧
      ∃ n : Fin 8, condHolds c (BitVec.ofNat 8 n.val) = true) ∧
    (at_ 0xFD [0x20, 0xD0] [(13, 5)]).readReg 13 = some 5 ∧ (13 : Nybble).toNat < 14 ∧ 14 ≤ (0xE : Nybble).toNat := by
  decide

theorem witness_IrmovWritesTheImmediate :
    (13 : Nybble).toNat < 14 ∧ 14 ≤ (0xE : Nybble).toNat ∧
    ((at_ 0xF5 [0x30]).pc + 10).toNat + 1 = (at_ 0xF5 [0x30]).cfg.memSize ∧
    (at_ 0xF6 [0x30]).cfg.memSize = ((at_ 0xF6 [0x30]).pc + 10).toNat := by decide

theorem witness_RmmovStoresTheWord :
    let s := at_ 0xF5 (0x40 :: 0x12 :: w8 8) [(1, 0xAA), (2, 0xF0)]
    s.mem.wf ∧ s.readReg 2 = some 0xF0 ∧ s.readReg 1 = some 0xAA ∧
    (effectiveAddress 0xF0 8).toNat + 8 = s.cfg.memSize ∧ (s.pc + 10).toNat + 1 = s.cfg.memSize ∧
    s.cfg.memSize + 1 = (effectiveAddress 0xF0 9).toNat + 8 ∧
    (at_ 0xF6 [0x40]).cfg.memSize = ((at_ 0xF6 [0x40]).pc + 10).toNat ∧ 14 ≤ (0xE : Nybble).toNat := by decide

theorem witness_MrmovLoadsTheWord :
    let s := (at_ 0xE0 (0x50 :: 0xD2 :: w8 8) [(2, 0xF0)]).poke 0xF8 [0x77]
    s.readReg 2 = some 0xF0 ∧ (13 : Nybble).toNat < 14 ∧ s.readWord (0xF0 + 8) = some 0x77 ∧
    (s.pc + 10).toNat < s.cfg.memSize ∧ s.cfg.memSize + 1 = ((0xF0 : Word) + 9).toNat + 8 ∧
    (at_ 0xF6 [0x50]).cfg.memSize = ((at_ 0xF6 [0x50]).pc + 10).toNat ∧ 14 ≤ (0xE : Nybble).toNat := by decide

/-- Of `jumpInstrDoes`: taken to the last byte and just past it, not taken to the last byte and just past it. -/
theorem witness_JumpsGoWhereTheConditionSays :
    (0xFF : Word).toNat + 1 = Config.default.memSize ∧ Config.default.memSize = (0x100 : Word).toNat ∧
    ((at_ 0xF6 [0x71]).pc + 9).toNat + 1 = Config.default.memSize ∧
    Config.default.memSize = ((at_ 0xF7 [0x71]).pc + 9).toNat ∧
    (∀ c ∈ [Cond.le, .l, .e, .ne, .ge, .g], (∃ n : Fin 8, condHolds c (BitVec.ofNat 8 n.val) = false) ∧
      ∃ n : Fin 8, condHolds c (BitVec.ofNat 8 n.val) = true) := by decide

theorem witness_CallPushesTheReturnAddress :
    (let s := at_ 0x10 (0x80 :: w8 0x40) [(4, 0x100)]
     s.mem.wf ∧ s.pushAddress.toNat + 8 = s.cfg.memSize ∧ (0xFF : Word).toNat + 1 = s.cfg.memSize ∧
       s.cfg.memSize = (0x100 : Word).toNat) ∧
    (let s := at_ 0x10 (0x80 :: w8 0x40) [(4, 0x101)]
     s.mem.wf ∧ s.cfg.memSize + 1 = s.pushAddress.toNat + 8) := by decide

theorem witness_RetPopsTheProgramCounter :
    (let s := (at_ 0x10 [0x90] [(4, 0xF8)]).poke 0xF8 [0xFF]
     s.readWord s.sp = some 0xFF ∧ (0xFF : Word).toNat + 1 = s.cfg.memSize) ∧
    (let s := (at_ 0x10 [0x90] [(4, 0xF8)]).poke 0xF8 [0x00, 0x01]
     s.readWord s.sp = some 0x100 ∧ s.cfg.memSize = (0x100 : Word).toNat) ∧
    (let s := at_ 0x10 [0x90] [(4, 0xF9)]; s.cfg.memSize + 1 = s.sp.toNat + 8) := by decide

/-- V-K1. -/
theorem witness_CallThenRetComesBack :
    let s := at_ 0x10 (0x80 :: w8 0x40) [(4, 0x80)]
    let t := stateOf s (exec (.call 0x40) s)
    let u := stateOf t (exec .ret t)
    s.mem.wf ∧ s.stat = .run ∧ exec (.call 0x40) s = .next t ∧ t.stat = .run ∧ exec .ret t = .next u ∧
      u.stat = .run ∧ u.pc = 0x19 :=
  ⟨by decide, by decide, rfl, by decide, rfl, by decide, by decide⟩

theorem witness_PushStoresTheRegister :
    (let s := at_ 0xFD [0xA0, 0xDE] [(4, 0x100), (13, 0x1234)]
     s.mem.wf ∧ s.cfg.spOperand = .adjusted ∧ (if (13 : Nybble) = 4 then some (s.sp - 8) else s.readReg 13) = some 0x1234 ∧
       (if (4 : Nybble) = 4 then some (s.sp - 8) else s.readReg 4) = some 0xF8 ∧
       s.pushAddress.toNat + 8 = s.cfg.memSize ∧ (s.pc + 2).toNat + 1 = s.cfg.memSize) ∧
    (let s := at_ 0xFE [0xA0, 0xEE] [(4, 0x101)]
     s.mem.wf ∧ s.cfg.memSize = (s.pc + 2).toNat ∧ 14 ≤ (0xE : Nybble).toNat ∧
       s.cfg.memSize + 1 = s.pushAddress.toNat + 8) := by decide

theorem witness_PopLoadsTheRegister :
    (let s := (at_ 0xEE [0xB0, 0xDE] [(4, 0xF8)]).poke 0xF8 [0x99]
     s.cfg.spOperand = .adjusted ∧ (13 : Nybble).toNat < 14 ∧ s.readWord s.sp = some 0x99 ∧
       (s.pc + 2).toNat < s.cfg.memSize) ∧
    (let s := (at_ 0xFE [0xB0, 0x2E] [(4, 0x80)]).poke 0x80 [0x99]
     s.readWord s.sp = some 0x99 ∧ s.cfg.memSize = (s.pc + 2).toNat) ∧
    (let s := at_ 0 [0xB0, 0xEE] [(4, 0xF9)]; 14 ≤ (0xE : Nybble).toNat ∧ s.cfg.memSize + 1 = s.sp.toNat + 8) := by decide

theorem witness_PushPopOfTheStackPointer :
    ∀ p ∈ [SpOperandPolicy.adjusted, .original, .reread],
      let s := { at_ 0xFD [0xA0, 0x4E] [(4, 0x88)] with cfg := { Config.default with spOperand := p } }
      s.mem.wf ∧ (s.pc + 2).toNat + 1 = s.cfg.memSize ∧ s.pushAddress.toNat + 8 ≤ s.cfg.memSize ∧
        s.readWord s.sp = some 0 ∧
      (let e := { at_ 0xFE [0xA0, 0x4E] [(4, 0x100)] with cfg := { Config.default with spOperand := p } }
       e.mem.wf ∧ e.cfg.memSize = (e.pc + 2).toNat ∧ e.pushAddress.toNat + 8 = e.cfg.memSize ∧
         e.cfg.memSize < e.sp.toNat + 8) ∧
      (let e := { at_ 0xFE [0xA0, 0x4E] [(4, 0xF8)] with cfg := { Config.default with spOperand := p } }
       (e.readWord e.sp).isSome = true ∧ e.cfg.memSize = (e.pc + 2).toNat) ∧
      (let e := { at_ 0 [0xA0, 0x4E] [(4, 0x101)] with cfg := { Config.default with spOperand := p } }
       e.cfg.memSize + 1 = e.pushAddress.toNat + 8) := by decide

theorem witness_WordWriteReadsBackLittleEndian :
    State.reset.mem.wf ∧ State.reset.mem.below State.reset.cfg.memSize ∧
    (∃ t, State.reset.writeWord 0xF8 0x1122334455667788 = some t ∧ t.mem.read 0xF8 = 0x88) ∧
    State.reset.writeWord 0xF9 1 = none ∧ State.reset.cfg.memSize < (0xF9 : Word).toNat + 8 :=
  ⟨by decide, by decide, ⟨(State.reset.writeWord 0xF8 0x1122334455667788).getD State.reset, rfl, by decide⟩,
   by decide, by decide⟩

/-- A byte written and written back to what an unlisted address reads as leaves the same data. -/
theorem witness_EqualReadsAreEqualMemories :
    Memory.wf [(3, 1)] ∧ Memory.wf (Memory.write (Memory.write [(3, 1)] 7 5) 7 0) ∧
    Memory.write (Memory.write [(3, 1)] 7 5) 7 0 = [(3, 1)] := by decide

theorem witness_StartupStallsFourTicks :
    let s := at_ 0xFF [0x10]
    s.fatal = none ∧ s.sim.countdown = 4 ∧ s.sim.stalling = false ∧ s.pc.toNat < s.cfg.memSize ∧
      hi (s.mem.read s.pc.toNat) = 1 := by decide

theorem witness_DrainShiftsSentinelsAndThenTheRecord :
    State.reset.fatal = none ∧ 0 < State.reset.sim.countdown ∧
    (let s := (tick ((at_ 4 [0x60, 0x12]).issue .none .none ⟨0xE, 1⟩)).2
     s.fatal = none ∧ s.sim.countdown = 0 ∧ s.sim.stalling = true) ∧
    (let s := (tick ((at_ 4 [0x60, 0x12]).issue .none ⟨0xE, 1⟩ .none)).2
     s.fatal = none ∧ s.sim.countdown = 1 ∧ s.sim.stalling = true) := by decide

theorem witness_SimulatorPhasesFollowTheTransitions :
    0 < State.reset.sim.countdown ∧ State.reset.sim.stalling = false ∧
    ((at_ 4 [0x60, 0x12]).issue .none .none ⟨0xE, 1⟩).issuing ∧
    (let s := (tick ((at_ 4 [0x60, 0x12]).issue .none ⟨0xE, 1⟩ .none)).2
     0 < s.sim.countdown ∧ s.sim.stalling = true) ∧
    (let s := (tick ((at_ 4 [0x60, 0x12]).issue .none .none ⟨0xE, 1⟩)).2
     s.sim.countdown = 0 ∧ s.sim.stalling = true) := by decide

/-- The largest wait, 3 + 3 (V-S10 with tracking). -/
theorem witness_StallLastsItsBubbles :
    let s := { (at_ 2 [0x90]).issue ⟨0xE, 4⟩ .none .none with cfg := { Config.default with callRetSp := true } }
    s.issuing ∧ s.classify = some ⟨[4], ⟨0xE, 4⟩, 3⟩ ∧ bubbles ⟨[4], ⟨0xE, 4⟩, 3⟩ s.sim.win = 6 := by decide

theorem witness_DataHazardCountsFromTheNewestMatch :
    (∀ (j : Fin 2), collides [1] ([Record.none, .none, ⟨0xE, 1⟩][j.val]?.getD .none) = false) ∧
    [Record.none, .none, ⟨0xE, 1⟩][2]? = some ⟨0xE, 1⟩ ∧ collides [1] ⟨0xE, 1⟩ = true ∧
    [Record.mk 1 0xE, .none, .none][0]? = some ⟨1, 0xE⟩ ∧ collides [1] ⟨1, 0xE⟩ = true ∧
    collides [0xE] Record.none = false := by decide

/-- V-S2: `add r0, r1` issues, `add r1, r2` follows. -/
theorem witness_ReaderAfterAluWaitsThree :
    let s := (at_ 0 [0x60, 0x01, 0x60, 0x12]).issue .none .none .none
    let u := { (ticks 1 s).2 with pc := 2 }
    s.issuing ∧ s.readByte s.pc = some 0x60 ∧ hi 0x60 = 6 ∧ s.readByte (s.pc + 1) = some 0x01 ∧ (lo 0x01).toNat < 14 ∧
    u.fatal = none ∧ u.sim = (ticks 1 s).2.sim ∧ (ticks 1 s).1 = List.replicate (1 - 1) .stall ++ [.proceed] ∧
    u.classify = some ⟨[1, 2], ⟨0xE, 2⟩, 0⟩ ∧ lo 0x01 ∈ ([1, 2] : List Nybble) := by decide

/-- A header with a register byte at the end of memory's last two bytes, one without in the last byte. -/
theorem witness_ClassifyFollowsTheTable :
    (let s := at_ 0xFE [0x60, 0x12]; s.readByte s.pc = some 0x60 ∧ s.readByte (s.pc + 1) = some 0x12) ∧
    (let s := at_ 0xFF [0x74]
     s.readByte s.pc = some 0x74 ∧ ¬ (hi 0x74).toNat ∈ [0x2, 0x3, 0x4, 0x5, 0x6, 0xA, 0xB]) := by decide

theorem witness_TickTouchesOnlyItsOwnState :
    let s := (at_ 0xFF [0x60]).issue .none .none .none
    s.issuing ∧ s.classify = none := by decide

theorem witness_FatalStopsEngineAndSimulator :
    { State.reset with fatal := some ⟨0x10, 7⟩ }.fatal.isSome = true := by decide

/-- V-S2: three instructions, three bubbles, ten cycles. -/
theorem witness_LockStepRunTakesFourPlusInstructionsPlusBubbles :
    let s := at_ 0 [0x60, 0x01, 0x60, 0x12, 0x00]
    s.fatal = none ∧ s.sim.countdown = 4 ∧ s.sim.stalling = false ∧
    (∃ t, lockStepInstrs 3 (ticks 4 s).2 = some (3, t) ∧ t.stat = .hlt) ∧ (cycles 10 s).stat = .hlt :=
  ⟨by decide, by decide, by decide,
   ⟨((lockStepInstrs 3 (ticks 4 (at_ 0 [0x60, 0x01, 0x60, 0x12, 0x00])).2).getD (0, State.reset)).2, rfl, by decide⟩,
   by decide⟩

theorem witness_EveryDriverCallKeepsTheInvariant : State.reset.Inv ∧ (at_ 0xFF [0x64]).Inv := by decide

theorem witness_StoreFailsOutsideItsRange :
    State.reset.mem.wf ∧ 14 ≤ (0xE : Nybble).toNat ∧ (0xD : Nybble).toNat < 14 ∧
    State.reset.cfg.memSize = (0x100 : Word).toNat ∧ State.reset.cfg.memSize < (0xF9 : Word).toNat + 8 ∧
    (0xFF : Word).toNat < State.reset.cfg.memSize ∧ (0xF8 : Word).toNat + 8 ≤ State.reset.cfg.memSize := by decide

/-- A bad jump selector; a halt in the last byte; a halted engine; `PC` just past memory. -/
theorem witness_FatalErrorIsReportedToTheDriver :
    (let s := at_ 0xFF [0x77]
     s.fatal = none ∧ s.stat = .run ∧ s.pc.toNat + 1 = s.cfg.memSize ∧ badSelectorHeader (s.mem.read s.pc.toNat)) ∧
    (¬ badSelectorHeader ((at_ 0xFF [0x76]).mem.read 0xFF) ∧ ¬ badSelectorHeader ((at_ 0xFF [0x00]).mem.read 0xFF)) ∧
    (let s := { State.reset with fatal := some ⟨0x10, 7⟩ }; s.fatal = some ⟨0x10, 7⟩) ∧
    (let s := { State.reset with stat := .hlt }; s.fatal = none ∧ s.stat ≠ .run) ∧
    (let s := at_ 0x100 [0x77]; s.fatal = none ∧ s.cfg.memSize = s.pc.toNat) := by decide

theorem witness_ResetTransactionSetsTheStartState :
    let image : List Host.Cell := [(0x10, 0xAB), (0xFF, 0x01), (0, 0)]
    (image.map Prod.fst).Nodup ∧ ∀ e ∈ image, e.1 < State.reset.cfg.memSize := by decide

end Sys2Proof.Tests
end

section
/-! SUPPORT. Header bytes whose high nybble names no base opcode (30_encoding.md R93). -/

namespace Sys2Proof

/-- The header alone decides, whatever follows it. -/
theorem decode_of_hi_illegal {b : Byte} (h : 0xC ≤ (hi b).toNat) (rest : List Byte) :
    decode (b :: rest) = .instr (.illegalBaseOpcode b) rest := by
  simp only [decode, baseOpOfNybble_eq_none.2 h]

namespace Machine

@[simp] theorem exec_illegalBaseOpcode (header : Byte) (s : State) :
    exec (.illegalBaseOpcode header) s = .next { s with stat := .ins } := rfl

/-- An illegal header is a whole instruction of one byte. -/
theorem runsFrom_illegalBaseOpcode {b : Byte} (h : 0xC ≤ (hi b).toNat) :
    runsFrom (· = b) 1 (fun _ _ _ => .illegalBaseOpcode b) := by
  refine runsFrom_none fun b' rest hb => ?_
  rw [hb, decode_of_hi_illegal h]

/-- Settles O20: the header decodes to the class by itself, so the step is the class's own execution. -/
theorem illegalBaseOpcodeFaults : Obligations.IllegalBaseOpcodeFaults := by
  intro s
  refine ⟨fun header => exec_illegalBaseOpcode header s, fun hfatal hrun hpc hhi => ?_⟩
  obtain ⟨hstep, -⟩ := runsFrom_illegalBaseOpcode hhi s hfatal hrun hpc rfl
  rw [hstep hpc, exec_illegalBaseOpcode]

end Machine
end Sys2Proof
end

section
/-! SUPPORT. Every meaning answers a next state, whatever the state and the operands (42_engine_step.md R156): each line
that can fail answers its address fault, and nothing else ends a meaning early. -/

namespace Sys2Proof.Machine

variable {s : State}

theorem writePc_last_isNext {v : Word} :
    ∃ t, (orAddressFault (s.writePc v) s fun s1 => .next s1) = .next t :=
  orAddressFault_isNext fun s1 => ⟨s1, rfl⟩

theorem aluFrame_isNext (f : AluFn) (rA rB : Nybble) : ∃ t, aluFrame f rA rB s = .next t :=
  orAddressFault_isNext fun _ => orAddressFault_isNext fun _ => orAddressFault_isNext fun _ => writePc_last_isNext

theorem moveFrame_isNext (c : Cond) (rA rB : Nybble) : ∃ t, moveFrame c rA rB s = .next t := by
  refine orAddressFault_isNext fun s1 => ?_
  split
  · exact orAddressFault_isNext fun _ => orAddressFault_isNext fun s2 => ⟨s2, rfl⟩
  · exact ⟨s1, rfl⟩

theorem execIrmov_isNext (rB : Nybble) (v : Word) : ∃ t, execIrmov rB v s = .next t :=
  orAddressFault_isNext fun _ => orAddressFault_isNext fun s2 => ⟨s2, rfl⟩

theorem execRmmov_isNext (rA rB : Nybble) (d : Word) : ∃ t, execRmmov rA rB d s = .next t :=
  orAddressFault_isNext fun _ => orAddressFault_isNext fun _ => orAddressFault_isNext fun _ =>
    orAddressFault_isNext fun s2 => ⟨s2, rfl⟩

theorem execMrmov_isNext (rA rB : Nybble) (d : Word) : ∃ t, execMrmov rA rB d s = .next t :=
  orAddressFault_isNext fun _ => orAddressFault_isNext fun _ => orAddressFault_isNext fun _ =>
    orAddressFault_isNext fun s2 => ⟨s2, rfl⟩

theorem jumpFrame_isNext (c : Cond) (v : Word) : ∃ t, jumpFrame c v s = .next t := writePc_last_isNext

theorem execCall_isNext (v : Word) : ∃ t, execCall v s = .next t :=
  orAddressFault_isNext fun _ => writePc_last_isNext

theorem execRet_isNext : ∃ t, execRet s = .next t :=
  orAddressFault_isNext fun _ => orAddressFault_isNext fun s1 => ⟨s1.setSp (popAdjust s.sp), rfl⟩

theorem execPush_isNext (rA : Nybble) : ∃ t, execPush rA s = .next t :=
  orAddressFault_isNext fun _ => orAddressFault_isNext fun _ => orAddressFault_isNext fun s3 => ⟨s3, rfl⟩

theorem execPop_isNext (rA : Nybble) : ∃ t, execPop rA s = .next t :=
  orAddressFault_isNext fun _ => orAddressFault_isNext fun _ => orAddressFault_isNext fun s2 => ⟨s2, rfl⟩

/-- No arm of the dispatch faults or refuses. -/
theorem exec_isNext (i : Instr) (s : State) : ∃ t, exec i s = .next t := by
  cases i with
  | halt => exact ⟨_, rfl⟩
  | nop => exact writePc_last_isNext
  | rrmov rA rB => exact moveFrame_isNext .always rA rB
  | cmovle rA rB => exact moveFrame_isNext .le rA rB
  | cmovl rA rB => exact moveFrame_isNext .l rA rB
  | cmove rA rB => exact moveFrame_isNext .e rA rB
  | cmovne rA rB => exact moveFrame_isNext .ne rA rB
  | cmovge rA rB => exact moveFrame_isNext .ge rA rB
  | cmovg rA rB => exact moveFrame_isNext .g rA rB
  | irmov rB v => exact execIrmov_isNext rB v
  | rmmov rA rB d => exact execRmmov_isNext rA rB d
  | mrmov rA rB d => exact execMrmov_isNext rA rB d
  | add rA rB => exact aluFrame_isNext .add rA rB
  | sub rA rB => exact aluFrame_isNext .sub rA rB
  | and rA rB => exact aluFrame_isNext .and rA rB
  | xor rA rB => exact aluFrame_isNext .xor rA rB
  | jmp v => exact jumpFrame_isNext .always v
  | jle v => exact jumpFrame_isNext .le v
  | jl v => exact jumpFrame_isNext .l v
  | je v => exact jumpFrame_isNext .e v
  | jne v => exact jumpFrame_isNext .ne v
  | jge v => exact jumpFrame_isNext .ge v
  | jg v => exact jumpFrame_isNext .g v
  | call v => exact execCall_isNext v
  | ret => exact execRet_isNext
  | push rA => exact execPush_isNext rA
  | pop rA => exact execPop_isNext rA
  | badSelectorMove sel => exact ⟨_, rfl⟩
  | illegalAluFunction fn => exact ⟨_, rfl⟩
  | badSelectorJump sel => exact ⟨_, rfl⟩
  | illegalBaseOpcode header => exact ⟨_, rfl⟩

/-- Settles O10: a stopped engine answers its own state, a rejection the address fault, and an instruction what its
meaning answers. -/
theorem stepAlwaysAnswersNext : Obligations.StepAlwaysAnswersNext := by
  intro s
  unfold step
  split
  · exact ⟨s, rfl⟩
  · split
    · exact exec_isNext _ s
    · exact ⟨_, rfl⟩

end Sys2Proof.Machine
end

section
/-! SUPPORT. halt and nop (42_engine_step.md R157, R158): what each does, and the header bytes that run it. -/

namespace Sys2Proof

/-- The low nybble of a halt is padding, and no byte after the header is looked at. -/
theorem decode_of_hi_halt {b : Byte} (h : hi b = 0) (rest : List Byte) : decode (b :: rest) = .instr .halt rest := by
  have hop : baseOpOfNybble (hi b) = some .halt := baseOpOfNybble_eq_some.2 h
  simp only [decode, hop]

/-- The low nybble of a nop is padding, and no byte after the header is looked at. -/
theorem decode_of_hi_nop {b : Byte} (h : hi b = 1) (rest : List Byte) : decode (b :: rest) = .instr .nop rest := by
  have hop : baseOpOfNybble (hi b) = some .nop := baseOpOfNybble_eq_some.2 h
  simp only [decode, hop]

namespace Machine

variable {s : State}

/-- A last line that writes the program counter inside memory. -/
theorem writePc_last_of_lt {v : Word} (h : v.toNat < s.cfg.memSize) :
    (orAddressFault (s.writePc v) s fun s1 => .next s1) = .next { s with pc := v } := by
  rw [writePc_eq_some.2 ⟨h, rfl⟩, orAddressFault_some]

/-- A last line that would write the program counter outside memory. -/
theorem writePc_last_of_le {v : Word} (h : s.cfg.memSize ≤ v.toNat) :
    (orAddressFault (s.writePc v) s fun s1 => .next s1) = .next { s with stat := .adr } := by
  rw [writePc_eq_none.2 h, orAddressFault_none]

@[simp] theorem exec_halt (s : State) : exec .halt s = .next { s with stat := .hlt } := rfl

theorem exec_nop_of_lt (h : (s.pc + 1).toNat < s.cfg.memSize) : exec .nop s = .next { s with pc := s.pc + 1 } :=
  writePc_last_of_lt h

theorem exec_nop_of_le (h : s.cfg.memSize ≤ (s.pc + 1).toNat) : exec .nop s = .next { s with stat := .adr } :=
  writePc_last_of_le h

theorem runsFrom_halt : runsFrom (hi · = 0) 1 (fun _ _ _ => .halt) :=
  runsFrom_none fun _ rest hb => decode_of_hi_halt hb rest

theorem runsFrom_nop : runsFrom (hi · = 1) 1 (fun _ _ _ => .nop) :=
  runsFrom_none fun _ rest hb => decode_of_hi_nop hb rest

/-- Settles O18: a halt is its header alone, so one inside memory is executed, in the last byte too. -/
theorem haltSetsTheStatusOnly : Obligations.HaltSetsTheStatusOnly := by
  intro s
  refine ⟨exec_halt s, fun hfatal hrun hpc hhi => ?_⟩
  obtain ⟨hstep, -⟩ := runsFrom_halt s hfatal hrun hpc hhi
  rw [hstep hpc, exec_halt]

/-- Settles O19: the two outcomes are those of the range check on `PC + 1`; a nop is its header alone, so one inside
memory is executed. -/
theorem nopAdvancesByOne : Obligations.NopAdvancesByOne := by
  intro s
  refine ⟨exec_nop_of_lt, exec_nop_of_le, fun hfatal hrun hpc hhi => ?_⟩
  obtain ⟨hstep, -⟩ := runsFrom_nop s hfatal hrun hpc hhi
  exact hstep hpc

end Machine
end Sys2Proof
end

section
/-! SUPPORT. A word stored and read back, and what the last line of an instruction leaves: the facts the stack
instructions need, of the state and not of any one meaning. -/

namespace Sys2Proof.Machine

variable {s : State}

/-- The word stored at an address is the word read there (20_memory.md R56). -/
theorem word_writeWord {m : Memory} (hm : m.wf) (a : Nat) (v : Word) : (m.writeWord a v).word a = v := by
  have hread : ∀ i < 8, (m.writeWord a v).read (a + i) = byteOfWord v i := fun _ hi =>
    read_writeWord_inside hm a v hi
  have hread0 : (m.writeWord a v).read a = byteOfWord v 0 := hread 0 (by decide)
  rw [Memory.word, hread0, hread 1 (by decide), hread 2 (by decide), hread 3 (by decide), hread 4 (by decide),
    hread 5 (by decide), hread 6 (by decide), hread 7 (by decide), wordOfBytes_byteOfWord]

/-- Only the program counter or the run status tells a last line's state from the one it began with, by the range
check on the new program counter (10_state.md R27). -/
theorem writePc_last_leaves (s : State) (v : Word) :
    ∃ t, (orAddressFault (s.writePc v) s fun s1 => .next s1) = .next t ∧
      t.regs = s.regs ∧ t.mem = s.mem ∧ t.cc = s.cc ∧ t.cfg = s.cfg ∧
      (v.toNat < s.cfg.memSize → t.pc = v ∧ controlSame s t) ∧
      (s.cfg.memSize ≤ v.toNat → t.pc = s.pc ∧ controlAfterAddressFault s t) := by
  rcases Nat.lt_or_ge v.toNat s.cfg.memSize with hlt | hge
  · exact ⟨_, writePc_last_of_lt hlt, rfl, rfl, rfl, rfl, fun _ => ⟨rfl, rfl, rfl, rfl, rfl⟩,
      fun hge => absurd hge (Nat.not_le.2 hlt)⟩
  · exact ⟨_, writePc_last_of_le hge, rfl, rfl, rfl, rfl, fun hlt => absurd hlt (Nat.not_lt.2 hge),
      fun _ => ⟨rfl, rfl, rfl, rfl, rfl⟩⟩

theorem readReg_congr {t : State} (h : t.regs = s.regs) (i : Nybble) : t.readReg i = s.readReg i := by
  rw [State.readReg, State.readReg, h]

/-- Writing the stack pointer changes no other register. -/
theorem regsSameBut_of_regs_eq_setSp {t : State} {v : Word} (h : t.regs = (s.setSp v).regs) :
    regsSameBut [4] s t := by
  intro i hi
  rw [readReg_congr h, readReg_setSp, if_neg (by simpa using hi)]

end Sys2Proof.Machine
end

section
/-! SUPPORT. The seven jumps (44_jumps_calls_stack.md R200 to R207), said once for the jump with a given condition. -/

namespace Sys2Proof

/-- The header with a condition's selector is a jump under that condition, which needs the word after it. -/
theorem decode_jump (c : Cond) (rest : List Byte) :
    decode (headerOf .jump (nybbleOfCond c) :: rest) = decodeWord rest (Instr.ofJump c) := by
  simp only [decode, hi_headerOf, lo_headerOf, baseOpOfNybble_nybbleOfBaseOp, condOfNybble_nybbleOfCond]

namespace Machine

theorem exec_ofJump (c : Cond) (v : Word) (s : State) : exec (Instr.ofJump c v) s = jumpFrame c v s := by
  cases c <;> rfl

theorem runsFrom_jump (c : Cond) :
    runsFrom (· = headerOf .jump (nybbleOfCond c)) 9 (fun _ _ v => Instr.ofJump c v) := by
  refine runsFrom_word fun b rest hb => ?_
  rw [hb, decode_jump]

/-- A jump does what its frame says, with its condition written out over the three flags. -/
theorem jumpInstrDoes_ofJump (c : Cond) {taken : Bool → Bool → Bool → Bool}
    (htaken : ∀ cc, condHolds c cc = taken (zfFlag cc) (sfFlag cc) (ofFlag cc)) :
    jumpInstrDoes (headerOf .jump (nybbleOfCond c)) (Instr.ofJump c) taken := by
  refine ⟨runsFrom_jump c, fun v s => ?_⟩
  rw [exec_ofJump, jumpFrame, htaken]
  exact ⟨writePc_last_of_lt, writePc_last_of_le⟩

/-- Settles O34: each jump is the jump with its condition, and each condition is the formula of its row in
40_condition_codes.md R112. -/
theorem jumpsGoWhereTheConditionSays : Obligations.JumpsGoWhereTheConditionSays :=
  ⟨jumpInstrDoes_ofJump .always fun _ => rfl,
   jumpInstrDoes_ofJump .le fun _ => rfl,
   jumpInstrDoes_ofJump .l fun _ => rfl,
   jumpInstrDoes_ofJump .e fun _ => rfl,
   jumpInstrDoes_ofJump .ne fun _ => rfl,
   jumpInstrDoes_ofJump .ge fun _ => rfl,
   jumpInstrDoes_ofJump .g fun _ => rfl⟩

end Machine
end Sys2Proof
end

section
/-! SUPPORT. call, and the return right after it (44_jumps_calls_stack.md R208, R210, R211). The lines that call and
push share, from the stack pointer on, are said of the state with a word pushed. -/

namespace Sys2Proof

/-- The low nybble of a call is padding. -/
theorem decode_of_hi_call {b : Byte} (h : hi b = 8) (rest : List Byte) :
    decode (b :: rest) = decodeWord rest .call := by
  have hop : baseOpOfNybble (hi b) = some .call := baseOpOfNybble_eq_some.2 h
  simp only [decode, hop]

namespace Machine

/-- The stack pointer down by 8 and a word stored where it then points. -/
def State.pushed (s : State) (w : Word) : State :=
  { s.setSp s.pushAddress with mem := s.mem.writeWord s.pushAddress.toNat w }

variable {s t u : State} {v w : Word}

@[simp] theorem pushed_cfg : (s.pushed w).cfg = s.cfg := rfl
@[simp] theorem pushed_regs : (s.pushed w).regs = (s.setSp s.pushAddress).regs := rfl
@[simp] theorem pushed_mem : (s.pushed w).mem = s.mem.writeWord s.pushAddress.toNat w := rfl

/-- The store after the decrement, inside memory. -/
theorem writeWord_setSp_of_le (h : s.pushAddress.toNat + 8 ≤ s.cfg.memSize) :
    (s.setSp s.pushAddress).writeWord s.pushAddress w = some (s.pushed w) :=
  writeWord_eq_some.2 ⟨h, rfl⟩

/-- The store after the decrement, outside memory. -/
theorem writeWord_setSp_of_lt (h : s.cfg.memSize < s.pushAddress.toNat + 8) :
    (s.setSp s.pushAddress).writeWord s.pushAddress w = none :=
  writeWord_eq_none.2 h

/-- A push that fits in memory, followed by a last line that writes the program counter. -/
theorem pushed_writePc_last (hm : s.mem.wf) (h : s.pushAddress.toNat + 8 ≤ s.cfg.memSize) (w v : Word) :
    ∃ t, (orAddressFault ((s.pushed w).writePc v) (s.pushed w) fun s1 => .next s1) = .next t ∧
      t.readReg 4 = some s.pushAddress ∧ regsSameBut [4] s t ∧
      t.readWord s.pushAddress = some w ∧ memSameOutsideWord s.pushAddress s t ∧ t.cc = s.cc ∧
      (v.toNat < s.cfg.memSize → t.pc = v ∧ controlSame s t) ∧
      (s.cfg.memSize ≤ v.toNat → t.pc = s.pc ∧ controlAfterAddressFault s t) := by
  obtain ⟨t, ht, hregs, hmem, hcc, hcfg, hlt, hge⟩ := writePc_last_leaves (s.pushed w) v
  refine ⟨t, ht, ?_, regsSameBut_of_regs_eq_setSp hregs, ?_, fun x hx => ?_, hcc, hlt, hge⟩
  · rw [readReg_congr (hregs.trans pushed_regs), readReg_setSp, if_pos rfl]
  · rw [readWord_eq_some, hcfg, hmem, pushed_mem, pushed_cfg]
    exact ⟨h, word_writeWord hm _ _⟩
  · rw [hmem, pushed_mem, read_writeWord_outside _ _ hx]

/-! call. -/

theorem runsFrom_call : runsFrom (hi · = 8) 9 (fun _ _ v => .call v) :=
  runsFrom_word fun _ rest hb => decode_of_hi_call hb rest

theorem exec_call_of_le (h : s.pushAddress.toNat + 8 ≤ s.cfg.memSize) :
    exec (.call v) s =
      orAddressFault ((s.pushed (s.pc + 9)).writePc v) (s.pushed (s.pc + 9)) fun s1 => .next s1 := by
  rw [exec, execCall, writeWord_setSp_of_le h, orAddressFault_some]

theorem exec_call_of_lt (h : s.cfg.memSize < s.pushAddress.toNat + 8) :
    exec (.call v) s = .next { s.setSp s.pushAddress with stat := .adr } := by
  rw [exec, execCall, writeWord_setSp_of_lt h, orAddressFault_none]

/-- Settles O35: a store inside memory leaves the return address pushed and then the last line decides; one outside
leaves the decremented stack pointer only. -/
theorem callPushesTheReturnAddress : Obligations.CallPushesTheReturnAddress := by
  refine ⟨runsFrom_call, fun v s hm => ⟨rfl, fun hle => ?_, fun hlt => ?_⟩⟩
  · rw [exec_call_of_le hle]
    exact pushed_writePc_last hm hle (s.pc + 9) v
  · exact ⟨_, exec_call_of_lt hlt, readReg_setSp, regsSameBut_of_regs_eq_setSp rfl, fun _ => rfl, rfl, rfl,
      rfl, rfl, rfl, rfl⟩

/-! The return right after a call. -/

/-- A call that leaves the engine running has made its store and reached the called address. -/
theorem exec_call_running (h : exec (.call v) s = .next t) (ht : t.stat = .run) :
    s.pushAddress.toNat + 8 ≤ s.cfg.memSize ∧ t = { s.pushed (s.pc + 9) with pc := v } := by
  rcases execCall_cases h with ⟨-, rfl⟩ | ⟨hle, ⟨-, rfl⟩ | ⟨-, rfl⟩⟩
  · cases ht
  · cases ht
  · exact ⟨hle, rfl⟩

/-- A return that leaves the engine running has popped the program counter. -/
theorem exec_ret_running (h : exec .ret s = .next t) (ht : t.stat = .run) :
    t = { s.setSp (popAdjust s.sp) with pc := s.mem.word s.sp.toNat } := by
  rcases execRet_cases h with ⟨-, rfl⟩ | ⟨-, -, rfl⟩
  · cases ht
  · rfl

theorem pushed_sp : (s.pushed w).sp = s.pushAddress := setSp_sp ..

/-- Popping the stack pointer undoes the decrement, modulo 2^64 (20_memory.md R65). -/
theorem popAdjust_pushAddress : popAdjust s.pushAddress = s.sp := BitVec.sub_add_cancel ..

theorem word_pushed (hm : s.mem.wf) : (s.pushed w).mem.word (s.pushed w).sp.toNat = w := by
  rw [pushed_sp, pushed_mem, word_writeWord hm]

/-- Settles O37: the call leaves its return address pushed and the stack pointer at it; the return takes both back and
writes no memory. -/
theorem callThenRetComesBack : Obligations.CallThenRetComesBack := by
  intro v s t u hm _ hcall htrun hret hurun
  obtain ⟨hle, rfl⟩ := exec_call_running hcall htrun
  obtain rfl := exec_ret_running hret hurun
  refine ⟨word_pushed hm, ?_, readWord_eq_some.2 ⟨hle, word_writeWord hm ..⟩⟩
  calc _ = popAdjust (s.pushed (s.pc + 9)).sp := setSp_sp ..
    _ = s.sp := by rw [pushed_sp, popAdjust_pushAddress]

end Machine
end Sys2Proof
end

section
/-! SUPPORT. What a tick does in each phase of the simulator (70_reset_and_hazards.md R272), taken from what a tick can
do, and the phases it leads between (R280, R281, R283). -/

namespace Sys2Proof.Machine

@[simp] theorem drain_stalling (m : StallSim) : m.drain.stalling = m.stalling := rfl
@[simp] theorem drain_countdown (m : StallSim) : m.drain.countdown = m.countdown - 1 := rfl

/-- One bubble of draining: a shift of the sentinel, or of the pending record in the last bubble of a hazard stall. -/
theorem drain_eq {m : StallSim} (hc : 0 < m.countdown) :
    m.drain = { m with
      countdown := m.countdown - 1
      win := ⟨if m.countdown = 1 ∧ m.stalling = true then m.pending else .none, m.win.w0, m.win.w1⟩ } := by
  have hlast : m.countdown - 1 = 0 ↔ m.countdown = 1 := by omega
  simp only [StallSim.drain, Window.shiftIn, hlast]

variable {s : State}

theorem tick_of_countdown (hf : s.fatal = none) (hc : 0 < s.sim.countdown) :
    tick s = (.stall, { s with sim := s.sim.drain }) := by
  simpa [hf, hc, hc.ne'] using tick_cases s

theorem tick_of_stall_over (hf : s.fatal = none) (hc : s.sim.countdown = 0) (hs : s.sim.stalling = true) :
    tick s = (.proceed, { s with sim := { s.sim with stalling := false } }) := by
  simpa [hf, hc, hs] using tick_cases s

/-- Everything a tick can do that makes a hazard pass. -/
theorem tick_cases_of_issuing (hi : s.issuing) :
    (s.classify = none ∧ tick s = (.stall, { s with stat := .adr })) ∨
    (∃ c, s.classify = some c ∧ bubbles c s.sim.win = 0 ∧
      tick s = (.proceed, { s with sim := { s.sim with win := s.sim.win.shiftIn c.dst } })) ∨
    (∃ c, s.classify = some c ∧ 0 < bubbles c s.sim.win ∧ tick s = (.stall, { s with sim :=
      { s.sim with countdown := bubbles c s.sim.win, stalling := true, pending := c.dst }.drain })) := by
  obtain ⟨hf, hc, hs⟩ := hi
  simpa [hf, hc, hs] using tick_cases s

/-- Settles O44: a tick with the countdown running is one bubble of draining. -/
theorem drainShiftsSentinelsAndThenTheRecord : Obligations.DrainShiftsSentinelsAndThenTheRecord := by
  intro s hf
  refine ⟨fun hc => ?_, tick_of_stall_over hf⟩
  rw [tick_of_countdown hf hc, drain_eq hc]
  exact ⟨rfl, rfl⟩

/-- From issuing, a tick leads to stalling where the hazard pass finds bubbles, and else stays in issuing
(70_reset_and_hazards.md R283). A peek that fails finds none. -/
theorem tick_phase_of_issuing (hi : s.issuing) :
    ((tick s).2.sim.stalling = true ↔ ∃ c, s.classify = some c ∧ 0 < bubbles c s.sim.win) ∧
    ((tick s).2.sim.stalling = true ∨ (tick s).2.sim.countdown = 0) := by
  have ⟨_, hc, hs⟩ := hi
  rcases tick_cases_of_issuing hi with ⟨hn, ht⟩ | ⟨c, hcl, hb, ht⟩ | ⟨c, hcl, hb, ht⟩
  · simp [ht, hn, hs, hc]
  · simp [ht, hcl, hb, hs, hc]
  · simp [ht, hcl, hb]

/-- Settles O45: with the countdown running a tick drains, which keeps the stalling flag; from issuing the hazard pass
decides; and with a hazard stall's countdown at 0 a tick clears the flag. -/
theorem simulatorPhasesFollowTheTransitions : Obligations.SimulatorPhasesFollowTheTransitions := by
  intro s hf
  refine ⟨fun hc hs => ?filling, tick_phase_of_issuing, fun hc hs => ?stalling, fun hc hs => ?stallOver⟩
  case filling =>
    rw [tick_of_countdown hf hc, drain_countdown]
    exact ⟨hs, by omega⟩
  case stalling => rw [tick_of_countdown hf hc, drain_stalling, hs]
  case stallOver =>
    rw [tick_of_stall_over hf hc hs]
    exact ⟨rfl, hf, hc, rfl⟩

end Sys2Proof.Machine
end

section
/-! SUPPORT. The encoding as a relation (30_encoding.md R81 to R96): which header byte and which bytes after it stand for
an instruction. Said once, and tied to the decoder in both directions; every fact about what bytes decode to is a case
split over it. -/

namespace Sys2Proof

/-! The decoder on the header bytes of each base opcode. -/

theorem decode_of_hi_irmov {b : Byte} (h : hi b = 3) (rest : List Byte) :
    decode (b :: rest) = decodeRegsWord rest (fun _ rB v => .irmov rB v) := by
  have hop : baseOpOfNybble (hi b) = some .irmov := baseOpOfNybble_eq_some.2 h
  simp only [decode, hop]

theorem decode_of_hi_rmmov {b : Byte} (h : hi b = 4) (rest : List Byte) :
    decode (b :: rest) = decodeRegsWord rest .rmmov := by
  have hop : baseOpOfNybble (hi b) = some .rmmov := baseOpOfNybble_eq_some.2 h
  simp only [decode, hop]

theorem decode_of_hi_mrmov {b : Byte} (h : hi b = 5) (rest : List Byte) :
    decode (b :: rest) = decodeRegsWord rest .mrmov := by
  have hop : baseOpOfNybble (hi b) = some .mrmov := baseOpOfNybble_eq_some.2 h
  simp only [decode, hop]

theorem decode_of_hi_ret {b : Byte} (h : hi b = 9) (rest : List Byte) : decode (b :: rest) = .instr .ret rest := by
  have hop : baseOpOfNybble (hi b) = some .ret := baseOpOfNybble_eq_some.2 h
  simp only [decode, hop]

theorem decode_of_hi_push {b : Byte} (h : hi b = 0xA) (rest : List Byte) :
    decode (b :: rest) = decodeRegs rest (fun rA _ => .push rA) := by
  have hop : baseOpOfNybble (hi b) = some .push := baseOpOfNybble_eq_some.2 h
  simp only [decode, hop]

theorem decode_of_hi_pop {b : Byte} (h : hi b = 0xB) (rest : List Byte) :
    decode (b :: rest) = decodeRegs rest (fun rA _ => .pop rA) := by
  have hop : baseOpOfNybble (hi b) = some .pop := baseOpOfNybble_eq_some.2 h
  simp only [decode, hop]

theorem decode_move (c : Cond) (rest : List Byte) :
    decode (headerOf .cmov (nybbleOfCond c) :: rest) = decodeRegs rest (Instr.ofMove c) := by
  simp only [decode, hi_headerOf, lo_headerOf, baseOpOfNybble_nybbleOfBaseOp, condOfNybble_nybbleOfCond]

theorem decode_alu (f : AluFn) (rest : List Byte) :
    decode (headerOf .alu (nybbleOfAluFn f) :: rest) = decodeRegs rest (Instr.ofAlu f) := by
  simp only [decode, hi_headerOf, lo_headerOf, baseOpOfNybble_nybbleOfBaseOp, aluFnOfNybble_nybbleOfAluFn]

theorem decode_badSelectorMove {sel : Nybble} (h : 7 ≤ sel.toNat) (rest : List Byte) :
    decode (headerOf .cmov sel :: rest) = .instr (.badSelectorMove sel) rest := by
  simp only [decode, hi_headerOf, lo_headerOf, baseOpOfNybble_nybbleOfBaseOp, condOfNybble_eq_none.2 h]

theorem decode_badSelectorJump {sel : Nybble} (h : 7 ≤ sel.toNat) (rest : List Byte) :
    decode (headerOf .jump sel :: rest) = .instr (.badSelectorJump sel) rest := by
  simp only [decode, hi_headerOf, lo_headerOf, baseOpOfNybble_nybbleOfBaseOp, condOfNybble_eq_none.2 h]

theorem decode_illegalAluFunction {fn : Nybble} (h : 4 ≤ fn.toNat) (rest : List Byte) :
    decode (headerOf .alu fn :: rest) = .instr (.illegalAluFunction fn) rest := by
  simp only [decode, hi_headerOf, lo_headerOf, baseOpOfNybble_nybbleOfBaseOp, aluFnOfNybble_eq_none.2 h]

/-! The relation. -/

/-- Header byte `b` and the bytes after it encode an instruction. Where no part of a byte is looked at, any value of it
does (30_encoding.md R96). -/
inductive Encodes : Byte → List Byte → Instr → Prop
  | halt {b : Byte} (h : hi b = 0) : Encodes b [] .halt
  | nop {b : Byte} (h : hi b = 1) : Encodes b [] .nop
  | move (c : Cond) (rA rB : Nybble) :
      Encodes (headerOf .cmov (nybbleOfCond c)) [nybbles rA rB] (Instr.ofMove c rA rB)
  | badSelectorMove {sel : Nybble} (h : 7 ≤ sel.toNat) : Encodes (headerOf .cmov sel) [] (.badSelectorMove sel)
  | irmov {b : Byte} (h : hi b = 3) (n rB : Nybble) (v : Word) :
      Encodes b (nybbles n rB :: bytesOfWord v) (.irmov rB v)
  | rmmov {b : Byte} (h : hi b = 4) (rA rB : Nybble) (d : Word) :
      Encodes b (nybbles rA rB :: bytesOfWord d) (.rmmov rA rB d)
  | mrmov {b : Byte} (h : hi b = 5) (rA rB : Nybble) (d : Word) :
      Encodes b (nybbles rA rB :: bytesOfWord d) (.mrmov rA rB d)
  | alu (f : AluFn) (rA rB : Nybble) :
      Encodes (headerOf .alu (nybbleOfAluFn f)) [nybbles rA rB] (Instr.ofAlu f rA rB)
  | illegalAluFunction {fn : Nybble} (h : 4 ≤ fn.toNat) : Encodes (headerOf .alu fn) [] (.illegalAluFunction fn)
  | jump (c : Cond) (v : Word) : Encodes (headerOf .jump (nybbleOfCond c)) (bytesOfWord v) (Instr.ofJump c v)
  | badSelectorJump {sel : Nybble} (h : 7 ≤ sel.toNat) : Encodes (headerOf .jump sel) [] (.badSelectorJump sel)
  | call {b : Byte} (h : hi b = 8) (v : Word) : Encodes b (bytesOfWord v) (.call v)
  | ret {b : Byte} (h : hi b = 9) : Encodes b [] .ret
  | push {b : Byte} (h : hi b = 0xA) (rA n : Nybble) : Encodes b [nybbles rA n] (.push rA)
  | pop {b : Byte} (h : hi b = 0xB) (rA n : Nybble) : Encodes b [nybbles rA n] (.pop rA)
  | illegalBaseOpcode {b : Byte} (h : 0xC ≤ (hi b).toNat) : Encodes b [] (.illegalBaseOpcode b)

variable {b : Byte} {bs rest used : List Byte} {i : Instr}

/-- Bytes that encode an instruction decode to it, whatever follows them. -/
theorem decode_of_encodes (h : Encodes b used i) (rest : List Byte) : decode (b :: (used ++ rest)) = .instr i rest := by
  cases h with
  | halt h => exact decode_of_hi_halt h _
  | nop h => exact decode_of_hi_nop h _
  | move c rA rB => simp [decode_move]
  | badSelectorMove h => exact decode_badSelectorMove h _
  | irmov h n rB v => simp [decode_of_hi_irmov h]
  | rmmov h rA rB d => simp [decode_of_hi_rmmov h]
  | mrmov h rA rB d => simp [decode_of_hi_mrmov h]
  | alu f rA rB => simp [decode_alu]
  | illegalAluFunction h => exact decode_illegalAluFunction h _
  | jump c v => simp [decode_jump]
  | badSelectorJump h => exact decode_badSelectorJump h _
  | call h v => simp [decode_of_hi_call h]
  | ret h => exact decode_of_hi_ret h _
  | push h rA n => simp [decode_of_hi_push h]
  | pop h rA n => simp [decode_of_hi_pop h]
  | illegalBaseOpcode h => exact decode_of_hi_illegal h _

/-- Eight bytes are the bytes of their word. -/
theorem bytesOfWord_wordOfBytes (b0 b1 b2 b3 b4 b5 b6 b7 : Byte) :
    bytesOfWord (wordOfBytes b0 b1 b2 b3 b4 b5 b6 b7) = [b0, b1, b2, b3, b4, b5, b6, b7] := by
  simp [bytesOfWord, byteOfWord_wordOfBytes]

theorem bytes_of_decodeRegs {k : Nybble → Nybble → Instr} (h : decodeRegs bs k = .instr i rest) :
    ∃ rA rB, bs = [nybbles rA rB] ++ rest ∧ i = k rA rB := by
  obtain ⟨rb, rfl, rfl⟩ := decodeRegs_eq_instr h
  exact ⟨hi rb, lo rb, by simp, rfl⟩

theorem bytes_of_decodeWord {k : Word → Instr} (h : decodeWord bs k = .instr i rest) :
    ∃ v, bs = bytesOfWord v ++ rest ∧ i = k v := by
  obtain ⟨b0, b1, b2, b3, b4, b5, b6, b7, rfl, rfl⟩ := decodeWord_eq_instr h
  exact ⟨_, by rw [bytesOfWord_wordOfBytes]; rfl, rfl⟩

theorem bytes_of_decodeRegsWord {k : Nybble → Nybble → Word → Instr} (h : decodeRegsWord bs k = .instr i rest) :
    ∃ rA rB v, bs = (nybbles rA rB :: bytesOfWord v) ++ rest ∧ i = k rA rB v := by
  obtain ⟨rb, b0, b1, b2, b3, b4, b5, b6, b7, rfl, rfl⟩ := decodeRegsWord_eq_instr h
  exact ⟨hi rb, lo rb, _, by rw [nybbles_hi_lo, bytesOfWord_wordOfBytes]; rfl, rfl⟩

/-- A header byte, by its base opcode and, where the low nybble is looked at, by what that names. -/
theorem header_cases (b : Byte) :
    hi b = 0 ∨ hi b = 1 ∨ (∃ c, b = headerOf .cmov (nybbleOfCond c)) ∨ (∃ sel, 7 ≤ sel.toNat ∧ b = headerOf .cmov sel) ∨
    hi b = 3 ∨ hi b = 4 ∨ hi b = 5 ∨ (∃ f, b = headerOf .alu (nybbleOfAluFn f)) ∨
    (∃ fn, 4 ≤ fn.toNat ∧ b = headerOf .alu fn) ∨ (∃ c, b = headerOf .jump (nybbleOfCond c)) ∨
    (∃ sel, 7 ≤ sel.toNat ∧ b = headerOf .jump sel) ∨ hi b = 8 ∨ hi b = 9 ∨ hi b = 0xA ∨ hi b = 0xB ∨
    0xC ≤ (hi b).toNat := by
  have bySelector (op : BaseOp) (h : b = headerOf op (lo b)) :
      (∃ c, b = headerOf op (nybbleOfCond c)) ∨ ∃ sel, 7 ≤ sel.toNat ∧ b = headerOf op sel := by
    cases hc : condOfNybble (lo b) with
    | none => exact .inr ⟨lo b, condOfNybble_eq_none.1 hc, h⟩
    | some c => exact .inl ⟨c, condOfNybble_eq_some.1 hc ▸ h⟩
  have byFunction (h : b = headerOf .alu (lo b)) :
      (∃ f, b = headerOf .alu (nybbleOfAluFn f)) ∨ ∃ fn, 4 ≤ fn.toNat ∧ b = headerOf .alu fn := by
    cases hf : aluFnOfNybble (lo b) with
    | none => exact .inr ⟨lo b, aluFnOfNybble_eq_none.1 hf, h⟩
    | some f => exact .inl ⟨f, aluFnOfNybble_eq_some.1 hf ▸ h⟩
  cases hop : baseOpOfNybble (hi b) with
  | none => simp [baseOpOfNybble_eq_none.1 hop]
  | some op =>
    have hhi := baseOpOfNybble_eq_some.1 hop
    have hb := eq_headerOf hop
    cases op with
    | cmov => rcases bySelector _ hb with h | h <;> simp [h]
    | alu => rcases byFunction hb with h | h <;> simp [h]
    | jump => rcases bySelector _ hb with h | h <;> simp [h]
    | _ => simp [hhi, nybbleOfBaseOp]

/-- The bytes an instruction decodes from encode it. -/
theorem encodes_of_decode (h : decode (b :: bs) = .instr i rest) : ∃ used, bs = used ++ rest ∧ Encodes b used i := by
  have whole {j : Instr} (he : Encodes b [] j) (hd : decode (b :: bs) = .instr j bs) :
      ∃ used, bs = used ++ rest ∧ Encodes b used i := by
    obtain ⟨rfl, rfl⟩ := DecodeResult.instr.inj (hd.symm.trans h)
    exact ⟨[], rfl, he⟩
  rcases header_cases b with hb | hb | ⟨c, rfl⟩ | ⟨sel, hs, rfl⟩ | hb | hb | hb | ⟨f, rfl⟩ | ⟨fn, hf, rfl⟩ | ⟨c, rfl⟩ |
    ⟨sel, hs, rfl⟩ | hb | hb | hb | hb | hb
  · exact whole (.halt hb) (decode_of_hi_halt hb _)
  · exact whole (.nop hb) (decode_of_hi_nop hb _)
  · obtain ⟨rA, rB, rfl, rfl⟩ := bytes_of_decodeRegs (decode_move c bs ▸ h)
    exact ⟨_, rfl, .move c rA rB⟩
  · exact whole (.badSelectorMove hs) (decode_badSelectorMove hs _)
  · obtain ⟨n, rB, v, rfl, rfl⟩ := bytes_of_decodeRegsWord (decode_of_hi_irmov hb bs ▸ h)
    exact ⟨_, rfl, .irmov hb n rB v⟩
  · obtain ⟨rA, rB, d, rfl, rfl⟩ := bytes_of_decodeRegsWord (decode_of_hi_rmmov hb bs ▸ h)
    exact ⟨_, rfl, .rmmov hb rA rB d⟩
  · obtain ⟨rA, rB, d, rfl, rfl⟩ := bytes_of_decodeRegsWord (decode_of_hi_mrmov hb bs ▸ h)
    exact ⟨_, rfl, .mrmov hb rA rB d⟩
  · obtain ⟨rA, rB, rfl, rfl⟩ := bytes_of_decodeRegs (decode_alu f bs ▸ h)
    exact ⟨_, rfl, .alu f rA rB⟩
  · exact whole (.illegalAluFunction hf) (decode_illegalAluFunction hf _)
  · obtain ⟨v, rfl, rfl⟩ := bytes_of_decodeWord (decode_jump c bs ▸ h)
    exact ⟨_, rfl, .jump c v⟩
  · exact whole (.badSelectorJump hs) (decode_badSelectorJump hs _)
  · obtain ⟨v, rfl, rfl⟩ := bytes_of_decodeWord (decode_of_hi_call hb bs ▸ h)
    exact ⟨_, rfl, .call hb v⟩
  · exact whole (.ret hb) (decode_of_hi_ret hb _)
  · obtain ⟨rA, n, rfl, rfl⟩ := bytes_of_decodeRegs (decode_of_hi_push hb bs ▸ h)
    exact ⟨_, rfl, .push hb rA n⟩
  · obtain ⟨rA, n, rfl, rfl⟩ := bytes_of_decodeRegs (decode_of_hi_pop hb bs ▸ h)
    exact ⟨_, rfl, .pop hb rA n⟩
  · exact whole (.illegalBaseOpcode hb) (decode_of_hi_illegal hb _)

/-- Only header bytes `C0` to `FF` have a high nybble that names no base opcode (30_encoding.md R93). -/
theorem illegalBaseOpcode_iff : ∀ b : Byte, 0xC0 ≤ b.toNat ↔ 0xC ≤ (hi b).toNat := by decide

/-- The canonical bytes of a well-formed instruction encode it. -/
theorem encodes_encode (hwf : i.wellFormed = true) : ∃ b used, encode i = b :: used ∧ Encodes b used i := by
  cases i with
  | halt => exact ⟨_, _, rfl, .halt rfl⟩
  | nop => exact ⟨_, _, rfl, .nop rfl⟩
  | rrmov rA rB => exact ⟨_, _, rfl, .move .always rA rB⟩
  | cmovle rA rB => exact ⟨_, _, rfl, .move .le rA rB⟩
  | cmovl rA rB => exact ⟨_, _, rfl, .move .l rA rB⟩
  | cmove rA rB => exact ⟨_, _, rfl, .move .e rA rB⟩
  | cmovne rA rB => exact ⟨_, _, rfl, .move .ne rA rB⟩
  | cmovge rA rB => exact ⟨_, _, rfl, .move .ge rA rB⟩
  | cmovg rA rB => exact ⟨_, _, rfl, .move .g rA rB⟩
  | irmov rB v => exact ⟨_, _, rfl, .irmov rfl rNone rB v⟩
  | rmmov rA rB d => exact ⟨_, _, rfl, .rmmov rfl rA rB d⟩
  | mrmov rA rB d => exact ⟨_, _, rfl, .mrmov rfl rA rB d⟩
  | add rA rB => exact ⟨_, _, rfl, .alu .add rA rB⟩
  | sub rA rB => exact ⟨_, _, rfl, .alu .sub rA rB⟩
  | and rA rB => exact ⟨_, _, rfl, .alu .and rA rB⟩
  | xor rA rB => exact ⟨_, _, rfl, .alu .xor rA rB⟩
  | jmp v => exact ⟨_, _, rfl, .jump .always v⟩
  | jle v => exact ⟨_, _, rfl, .jump .le v⟩
  | jl v => exact ⟨_, _, rfl, .jump .l v⟩
  | je v => exact ⟨_, _, rfl, .jump .e v⟩
  | jne v => exact ⟨_, _, rfl, .jump .ne v⟩
  | jge v => exact ⟨_, _, rfl, .jump .ge v⟩
  | jg v => exact ⟨_, _, rfl, .jump .g v⟩
  | call v => exact ⟨_, _, rfl, .call rfl v⟩
  | ret => exact ⟨_, _, rfl, .ret rfl⟩
  | push rA => exact ⟨_, _, rfl, .push rfl rA rNone⟩
  | pop rA => exact ⟨_, _, rfl, .pop rfl rA rNone⟩
  | badSelectorMove sel => exact ⟨_, _, rfl, .badSelectorMove (of_decide_eq_true hwf)⟩
  | illegalAluFunction fn => exact ⟨_, _, rfl, .illegalAluFunction (of_decide_eq_true hwf)⟩
  | badSelectorJump sel => exact ⟨_, _, rfl, .badSelectorJump (of_decide_eq_true hwf)⟩
  | illegalBaseOpcode header =>
    exact ⟨_, _, rfl, .illegalBaseOpcode ((illegalBaseOpcode_iff header).1 (of_decide_eq_true hwf))⟩

/-- Settles O2: the canonical bytes encode the instruction, and bytes that encode an instruction decode to it. -/
theorem decodeInvertsEncode : Obligations.DecodeInvertsEncode := by
  intro i rest hwf
  obtain ⟨b, used, hbytes, henc⟩ := encodes_encode hwf
  rw [hbytes]
  exact decode_of_encodes henc rest

end Sys2Proof
end

section
/-! SUPPORT. What the encoding says of decoded instructions and of bytes that decode to none: well-formedness, lengths,
missing bytes, and the places the decoder does not look at. -/

namespace Sys2Proof

variable {b b' : Byte} {bs rest used : List Byte} {i : Instr}

@[simp] theorem ofMove_wellFormed (c : Cond) (rA rB : Nybble) : (Instr.ofMove c rA rB).wellFormed = true := by
  cases c <;> rfl

@[simp] theorem ofJump_wellFormed (c : Cond) (v : Word) : (Instr.ofJump c v).wellFormed = true := by cases c <;> rfl

@[simp] theorem ofAlu_wellFormed (f : AluFn) (rA rB : Nybble) : (Instr.ofAlu f rA rB).wellFormed = true := by
  cases f <;> rfl

@[simp] theorem ofMove_length (c : Cond) (rA rB : Nybble) : (Instr.ofMove c rA rB).length = 2 := by cases c <;> rfl

@[simp] theorem ofJump_length (c : Cond) (v : Word) : (Instr.ofJump c v).length = 9 := by cases c <;> rfl

@[simp] theorem ofAlu_length (f : AluFn) (rA rB : Nybble) : (Instr.ofAlu f rA rB).length = 2 := by cases f <;> rfl

theorem wellFormed_of_encodes (h : Encodes b used i) : i.wellFormed = true := by
  cases h with
  | move c rA rB => exact ofMove_wellFormed c rA rB
  | alu f rA rB => exact ofAlu_wellFormed f rA rB
  | jump c v => exact ofJump_wellFormed c v
  | badSelectorMove h => exact decide_eq_true h
  | illegalAluFunction h => exact decide_eq_true h
  | badSelectorJump h => exact decide_eq_true h
  | illegalBaseOpcode h => exact decide_eq_true ((illegalBaseOpcode_iff b).2 h)
  | _ => rfl

theorem length_of_encodes (h : Encodes b used i) : used.length + 1 = i.length := by
  cases h with
  | move c rA rB => exact (ofMove_length c rA rB).symm
  | alu f rA rB => exact (ofAlu_length f rA rB).symm
  | jump c v => exact (ofJump_length c v).symm
  | _ => rfl

/-- Settles O3: decoded bytes encode the instruction, and bytes that encode one are as many as it is long. -/
theorem decodeTakesTheLength : Obligations.DecodeTakesTheLength := by
  intro bytes rest i h
  cases bytes with
  | nil => cases h
  | cons b bs =>
    obtain ⟨used, rfl, henc⟩ := encodes_of_decode h
    exact ⟨wellFormed_of_encodes henc, b :: used, rfl, length_of_encodes henc⟩

/-! The bytes a header needs, and those that are missing. -/

theorem nybbleOfCond_lt (c : Cond) : (nybbleOfCond c).toNat < 7 := by cases c <;> decide

theorem nybbleOfAluFn_lt (f : AluFn) : (nybbleOfAluFn f).toNat < 4 := by cases f <;> decide

namespace Machine

/-- The classes of header bytes that are no instruction, by their nybbles (30_encoding.md R93 to R95). -/
theorem illegalHeader_iff : ∀ b : Byte, illegalHeader b ↔ 0xC ≤ (hi b).toNat ∨ (hi b = 6 ∧ 4 ≤ (lo b).toNat) := by
  decide

theorem badSelectorHeader_iff :
    ∀ b : Byte, badSelectorHeader b ↔ (hi b = 2 ∨ hi b = 7) ∧ 7 ≤ (lo b).toNat := by decide

/-- A header that needs no byte but itself: no operands, or no instruction. -/
theorem headerLength_eq_one_iff : ∀ b : Byte, headerLength b = 1 ↔
    hi b = 0 ∨ hi b = 1 ∨ hi b = 9 ∨ illegalHeader b ∨ badSelectorHeader b := by decide

theorem headerLength_eq_two_iff : ∀ b : Byte, headerLength b = 2 ↔
    (hi b = 2 ∧ (lo b).toNat < 7) ∨ (hi b = 6 ∧ (lo b).toNat < 4) ∨ hi b = 0xA ∨ hi b = 0xB := by decide

theorem headerLength_eq_nine_iff : ∀ b : Byte, headerLength b = 9 ↔
    (hi b = 7 ∧ (lo b).toNat < 7) ∨ hi b = 8 := by decide

theorem headerLength_eq_ten_iff : ∀ b : Byte, headerLength b = 10 ↔ hi b = 3 ∨ hi b = 4 ∨ hi b = 5 := by decide

/-- A decoder answers a rejection exactly on fewer than `n` bytes. -/
def rejectsBelow (n : Nat) (bs : List Byte) (answer : DecodeResult) : Prop :=
  (∃ e, answer = .reject e) ↔ bs.length < n

theorem rejectsBelow_instr : rejectsBelow 0 bs (.instr i rest) := by simp [rejectsBelow]

theorem rejectsBelow_decodeRegs (k : Nybble → Nybble → Instr) : rejectsBelow 1 bs (decodeRegs bs k) := by
  simp [rejectsBelow, decodeRegs_eq_reject]

theorem rejectsBelow_decodeWord (k : Word → Instr) : rejectsBelow 8 bs (decodeWord bs k) := by
  simp [rejectsBelow, decodeWord_eq_reject]

theorem rejectsBelow_decodeRegsWord (k : Nybble → Nybble → Word → Instr) :
    rejectsBelow 9 bs (decodeRegsWord bs k) := by
  cases bs with
  | nil => simp [rejectsBelow, decodeRegsWord]
  | cons rb bs =>
    simp only [rejectsBelow, decodeRegsWord, decodeWord_eq_reject, List.length_cons, exists_and_left, exists_eq, and_true]
    omega

/-- The bytes after the header that its format needs, in any header byte. -/
theorem decode_rejectsBelow (b : Byte) (bs : List Byte) : rejectsBelow (headerLength b - 1) bs (decode (b :: bs)) := by
  have noOperands {i : Instr} (hl : headerLength b = 1) (hd : decode (b :: bs) = .instr i bs) :
      rejectsBelow (headerLength b - 1) bs (decode (b :: bs)) := by
    rw [hl, hd]; exact rejectsBelow_instr
  rcases header_cases b with hb | hb | ⟨c, rfl⟩ | ⟨sel, hs, rfl⟩ | hb | hb | hb | ⟨f, rfl⟩ | ⟨fn, hf, rfl⟩ | ⟨c, rfl⟩ |
    ⟨sel, hs, rfl⟩ | hb | hb | hb | hb | hb
  · exact noOperands ((headerLength_eq_one_iff b).2 (by simp [hb])) (decode_of_hi_halt hb bs)
  · exact noOperands ((headerLength_eq_one_iff b).2 (by simp [hb])) (decode_of_hi_nop hb bs)
  · rw [(headerLength_eq_two_iff _).2 (.inl ⟨hi_headerOf .., by rw [lo_headerOf]; exact nybbleOfCond_lt c⟩), decode_move]
    exact rejectsBelow_decodeRegs _
  · exact noOperands ((headerLength_eq_one_iff _).2 (by simp [badSelectorHeader_iff, hs, nybbleOfBaseOp]))
      (decode_badSelectorMove hs bs)
  · rw [(headerLength_eq_ten_iff b).2 (by simp [hb]), decode_of_hi_irmov hb]
    exact rejectsBelow_decodeRegsWord _
  · rw [(headerLength_eq_ten_iff b).2 (by simp [hb]), decode_of_hi_rmmov hb]
    exact rejectsBelow_decodeRegsWord _
  · rw [(headerLength_eq_ten_iff b).2 (by simp [hb]), decode_of_hi_mrmov hb]
    exact rejectsBelow_decodeRegsWord _
  · rw [(headerLength_eq_two_iff _).2 (.inr (.inl ⟨hi_headerOf .., by rw [lo_headerOf]; exact nybbleOfAluFn_lt f⟩)),
      decode_alu]
    exact rejectsBelow_decodeRegs _
  · exact noOperands ((headerLength_eq_one_iff _).2 (by simp [illegalHeader_iff, hf, nybbleOfBaseOp]))
      (decode_illegalAluFunction hf bs)
  · rw [(headerLength_eq_nine_iff _).2 (.inl ⟨hi_headerOf .., by rw [lo_headerOf]; exact nybbleOfCond_lt c⟩), decode_jump]
    exact rejectsBelow_decodeWord _
  · exact noOperands ((headerLength_eq_one_iff _).2 (by simp [badSelectorHeader_iff, hs, nybbleOfBaseOp]))
      (decode_badSelectorJump hs bs)
  · rw [(headerLength_eq_nine_iff b).2 (.inr hb), decode_of_hi_call hb]
    exact rejectsBelow_decodeWord _
  · exact noOperands ((headerLength_eq_one_iff b).2 (by simp [hb])) (decode_of_hi_ret hb bs)
  · rw [(headerLength_eq_two_iff b).2 (by simp [hb]), decode_of_hi_push hb]
    exact rejectsBelow_decodeRegs _
  · rw [(headerLength_eq_two_iff b).2 (by simp [hb]), decode_of_hi_pop hb]
    exact rejectsBelow_decodeRegs _
  · exact noOperands ((headerLength_eq_one_iff b).2 (by simp [illegalHeader_iff, hb])) (decode_of_hi_illegal hb bs)

/-- Settles O4: each header's format rejects exactly below the bytes it needs. -/
theorem decodeRejectsOnlyMissingBytes : Obligations.DecodeRejectsOnlyMissingBytes := by
  refine ⟨⟨_, rfl⟩, fun b0 rest => ?_⟩
  have hpos : ∀ b : Byte, 1 ≤ headerLength b := by decide
  have hmissing : (∃ e, decode (b0 :: rest) = .reject e) ↔ rest.length < headerLength b0 - 1 := decode_rejectsBelow b0 rest
  have := hpos b0
  rw [hmissing]
  omega

end Machine

/-! What is never looked at. -/

/-- Headers with padding in the low nybble decode by their high nybble alone (30_encoding.md R96). -/
theorem decode_congr_padding (hh : hi b = hi b') (hpad : (hi b).toNat ∈ [0x0, 0x1, 0x3, 0x4, 0x5, 0x8, 0x9, 0xA, 0xB]) :
    decode (b :: bs) = decode (b' :: bs) := by
  have hop : ∀ n : Nybble, n.toNat ∈ [0x0, 0x1, 0x3, 0x4, 0x5, 0x8, 0x9, 0xA, 0xB] →
      ∃ op, baseOpOfNybble n = some op ∧ op ≠ .cmov ∧ op ≠ .alu ∧ op ≠ .jump := by decide
  obtain ⟨op, hb, hcmov, halu, hjump⟩ := hop _ hpad
  have hb' : baseOpOfNybble (hi b') = some op := hh ▸ hb
  cases op with
  | cmov => exact absurd rfl hcmov
  | alu => exact absurd rfl halu
  | jump => exact absurd rfl hjump
  | _ => simp only [decode, hb, hb']

/-- Settles O5: the padding and the unused nybbles do not enter the decoder's answer, and the canonical bytes are those
the encoder writes. -/
theorem paddingIsIgnored : Obligations.PaddingIsIgnored := by
  refine ⟨fun b0 b0' rest => decode_congr_padding, fun b0 n n' rB rest h => ?irmov, fun b0 rA n n' rest h => ?pushPop,
    rfl, rfl, rfl, fun _ _ => rfl, fun _ _ _ => rfl, fun _ _ _ => rfl, fun _ => rfl, fun _ => rfl, fun _ => rfl⟩
  case irmov =>
    have hb : hi b0 = 3 := BitVec.eq_of_toNat_eq h
    simp [decode_of_hi_irmov hb, decodeRegsWord]
  case pushPop =>
    rcases h with h | h
    · have hb : hi b0 = 0xA := BitVec.eq_of_toNat_eq h
      simp [decode_of_hi_push hb]
    · have hb : hi b0 = 0xB := BitVec.eq_of_toNat_eq h
      simp [decode_of_hi_pop hb]

/-- Settles O1: six closed instances of the decoder. -/
theorem decodeReadsWrittenOutWords : Obligations.DecodeReadsWrittenOutWords := by
  unfold Obligations.DecodeReadsWrittenOutWords
  decide

end Sys2Proof
end

section
/-! SUPPORT. What a step runs: the instruction its fetched bytes encode, or the address fault of a missing byte
(42_engine_step.md R150, R151). Every statement about all steps starts here. -/

namespace Sys2Proof.Machine

variable {s t : State} {i : Instr} {rest : List Byte}

theorem stopped_iff : s.stopped = true ↔ s.stat ≠ .run ∨ s.fatal.isSome = true := by
  simp [State.stopped, or_comm]

theorem fetchBytes_of_le (h : s.cfg.memSize ≤ s.pc.toNat) : s.fetchBytes = [] :=
  if_neg (Nat.not_lt.2 h)

theorem fetchBytes_length (s : State) : s.fetchBytes.length = min 10 (s.cfg.memSize - s.pc.toNat) := bytesFrom_length ..

/-- Settles O6: the running engine's step is the match on what the bytes decode to. -/
theorem stepRunsTheDecodedInstruction : Obligations.StepRunsTheDecodedInstruction := by
  intro s i rest hf hs hd
  rw [step_running hf hs, hd]

theorem step_of_reject {e : DecodeReject} (hf : s.fatal = none) (hs : s.stat = .run)
    (hd : decode s.fetchBytes = .reject e) : step s = .next { s with stat := .adr } := by
  rw [step_running hf hs, hd]
  rfl

/-- Bytes that stand in memory from `PC` on are the first of the fetched ones. -/
theorem fetchBytes_extend {bs : List Byte} (hlen : bs.length ≤ 10) (hroom : s.pc.toNat + bs.length ≤ s.cfg.memSize)
    (hmem : ∀ (k : Nat) (b : Byte), bs[k]? = some b → s.mem.read (s.pc.toNat + k) = b) :
    ∃ rest, bs ++ rest = s.fetchBytes := by
  have htake : s.fetchBytes.take bs.length = bs := by
    refine List.ext_getElem? fun k => ?_
    rw [List.getElem?_take]
    split
    · rename_i hk
      have hbyte := List.getElem?_eq_getElem hk
      rw [State.fetchBytes, bytesFrom_getElem?, if_pos (by rw [maxLength]; omega), hbyte, hmem k bs[k] hbyte]
    · rename_i hk
      exact (List.getElem?_eq_none (Nat.le_of_not_lt hk)).symm
  exact ⟨_, (congrArg (· ++ _) htake.symm).trans (List.take_append_drop bs.length s.fetchBytes)⟩

theorem encode_length (i : Instr) : (encode i).length = i.length := by cases i <;> rfl

theorem length_le (i : Instr) : i.length ≤ 10 := by cases i <;> simp [Instr.length]

/-- Settles O7: the canonical bytes begin the fetched ones, and so decode to the instruction. -/
theorem stepRunsTheBytesAtPc : Obligations.StepRunsTheBytesAtPc := by
  intro s i hf hs hwf hroom hmem
  obtain ⟨rest, hrest⟩ := fetchBytes_extend (encode_length i ▸ length_le i) hroom hmem
  exact stepRunsTheDecodedInstruction s i rest hf hs (hrest ▸ decodeInvertsEncode i rest hwf)

/-- Settles O8: nothing can be fetched outside memory, and inside it fewer bytes than the header needs are rejected. -/
theorem missingInstructionByteFaults : Obligations.MissingInstructionByteFaults := by
  intro s hf hs
  have houtside (h : s.cfg.memSize ≤ s.pc.toNat) : step s = .next { s with stat := .adr } :=
    step_of_reject hf hs (congrArg decode (fetchBytes_of_le h))
  refine ⟨houtside, fun hshort => ?_⟩
  rcases Nat.lt_or_ge s.pc.toNat s.cfg.memSize with hpc | hpc
  · obtain ⟨rest, hfetch, -⟩ := fetchBytes_cons hpc
    have hlen := fetchBytes_length s
    have hmax : ∀ b : Byte, headerLength b ≤ 10 := by decide
    have := hmax (s.mem.read s.pc.toNat)
    rw [hfetch, List.length_cons] at hlen
    obtain ⟨e, he⟩ := (decodeRejectsOnlyMissingBytes.2 (s.mem.read s.pc.toNat) rest).2 (by omega)
    exact step_of_reject hf hs (hfetch ▸ he)
  · exact houtside hpc

/-- Settles O9: a stopped engine's step is no change, hence any number of them; the reset transaction leaves `RUN` and no
fatal report. -/
theorem stoppedEngineDoesNothing : Obligations.StoppedEngineDoesNothing := by
  intro s h
  have hstep : step s = .next s := step_of_stopped (stopped_iff.2 h)
  have hcore : Sys2Proof.core.step s = .next s := hstep
  refine ⟨hstep, fun n => ?_, fun r c image => rfl⟩
  induction n with
  | zero => rfl
  | succ n ih => simp only [Host.Core.run, hcore, ih]

/-! Everything a step can do. -/

/-- From a running engine with `PC` inside memory: the address fault of a byte the header needs and memory does not have,
or an instruction the header and the bytes after it encode. -/
theorem step_cases_of_running (hf : s.fatal = none) (hs : s.stat = .run) (hpc : s.pc.toNat < s.cfg.memSize)
    (h : step s = .next t) :
    (1 < headerLength (s.mem.read s.pc.toNat) ∧ t = { s with stat := .adr }) ∨
    ∃ i used, Encodes (s.mem.read s.pc.toNat) used i ∧ exec i s = .next t := by
  obtain ⟨rest, hfetch, -⟩ := fetchBytes_cons hpc
  cases hd : decode s.fetchBytes with
  | instr i rest' =>
    rw [stepRunsTheDecodedInstruction s i rest' hf hs hd] at h
    obtain ⟨used, -, henc⟩ := encodes_of_decode (hfetch ▸ hd)
    exact .inr ⟨i, used, henc, h⟩
  | reject e =>
    have hmissing := (decodeRejectsOnlyMissingBytes.2 _ rest).1 ⟨e, hfetch ▸ hd⟩
    rw [step_of_reject hf hs hd] at h
    exact .inl ⟨by omega, (Host.Outcome.next.inj h).symm⟩

/-- From any state. -/
theorem step_cases (h : step s = .next t) :
    t = s ∨ t = { s with stat := .adr } ∨
    (s.pc.toNat < s.cfg.memSize ∧ ∃ i used, Encodes (s.mem.read s.pc.toNat) used i ∧ exec i s = .next t) := by
  by_cases hstop : s.stat ≠ .run ∨ s.fatal.isSome = true
  · rw [step_of_stopped (stopped_iff.2 hstop)] at h
    exact .inl (Host.Outcome.next.inj h).symm
  · obtain ⟨hs, hf⟩ : s.stat = .run ∧ s.fatal = none := by simpa using hstop
    refine .inr ?_
    rcases Nat.lt_or_ge s.pc.toNat s.cfg.memSize with hpc | hpc
    · rcases step_cases_of_running hf hs hpc h with ⟨-, ht⟩ | hrun
      · exact .inl ht
      · exact .inr ⟨hpc, hrun⟩
    · rw [(missingInstructionByteFaults s hf hs).1 hpc] at h
      exact .inl (Host.Outcome.next.inj h).symm

end Sys2Proof.Machine
end

section
/-! SUPPORT. The frame of every meaning, said once: which parts of the state an instruction can change, and to what. The
members of a family (43_moves.md R180, 41_alu.md R131, 44_jumps_calls_stack.md R200) are one case. -/

namespace Sys2Proof

/-- A case split over the instructions with one case for each family. -/
theorem Instr.familyCases {P : Instr → Prop} (halt : P .halt) (nop : P .nop)
    (move : ∀ c rA rB, P (.ofMove c rA rB)) (irmov : ∀ rB v, P (.irmov rB v))
    (rmmov : ∀ rA rB d, P (.rmmov rA rB d)) (mrmov : ∀ rA rB d, P (.mrmov rA rB d))
    (alu : ∀ f rA rB, P (.ofAlu f rA rB)) (jump : ∀ c v, P (.ofJump c v)) (call : ∀ v, P (.call v)) (ret : P .ret)
    (push : ∀ rA, P (.push rA)) (pop : ∀ rA, P (.pop rA))
    (badSelectorMove : ∀ sel, P (.badSelectorMove sel)) (illegalAluFunction : ∀ fn, P (.illegalAluFunction fn))
    (badSelectorJump : ∀ sel, P (.badSelectorJump sel)) (illegalBaseOpcode : ∀ b, P (.illegalBaseOpcode b)) :
    ∀ i, P i
  | .halt => halt
  | .nop => nop
  | .rrmov rA rB => move .always rA rB
  | .cmovle rA rB => move .le rA rB
  | .cmovl rA rB => move .l rA rB
  | .cmove rA rB => move .e rA rB
  | .cmovne rA rB => move .ne rA rB
  | .cmovge rA rB => move .ge rA rB
  | .cmovg rA rB => move .g rA rB
  | .irmov rB v => irmov rB v
  | .rmmov rA rB d => rmmov rA rB d
  | .mrmov rA rB d => mrmov rA rB d
  | .add rA rB => alu .add rA rB
  | .sub rA rB => alu .sub rA rB
  | .and rA rB => alu .and rA rB
  | .xor rA rB => alu .xor rA rB
  | .jmp v => jump .always v
  | .jle v => jump .le v
  | .jl v => jump .l v
  | .je v => jump .e v
  | .jne v => jump .ne v
  | .jge v => jump .ge v
  | .jg v => jump .g v
  | .call v => call v
  | .ret => ret
  | .push rA => push rA
  | .pop rA => pop rA
  | .badSelectorMove sel => badSelectorMove sel
  | .illegalAluFunction fn => illegalAluFunction fn
  | .badSelectorJump sel => badSelectorJump sel
  | .illegalBaseOpcode b => illegalBaseOpcode b

/-- The instructions that write `CC`. -/
def Instr.writesFlags : Instr → Bool
  | .add .. | .sub .. | .and .. | .xor .. => true
  | _ => false

/-- The instructions that write memory. -/
def Instr.stores : Instr → Bool
  | .rmmov .. | .call .. | .push .. => true
  | _ => false

/-- The run status of the instructions that always end the run. -/
def Instr.ending : Instr → Option Machine.RunStatus
  | .halt => some .hlt
  | .illegalAluFunction _ | .illegalBaseOpcode _ => some .ins
  | _ => none

/-- The selector of the instructions that raise the fatal error. -/
def Instr.badSelector : Instr → Option Nybble
  | .badSelectorMove sel | .badSelectorJump sel => some sel
  | _ => none

section
variable (c : Cond) (f : AluFn) (rA rB : Nybble) (v : Word)
@[simp] theorem ofMove_writesFlags : (Instr.ofMove c rA rB).writesFlags = false := by cases c <;> rfl
@[simp] theorem ofMove_stores : (Instr.ofMove c rA rB).stores = false := by cases c <;> rfl
@[simp] theorem ofMove_ending : (Instr.ofMove c rA rB).ending = none := by cases c <;> rfl
@[simp] theorem ofMove_badSelector : (Instr.ofMove c rA rB).badSelector = none := by cases c <;> rfl
@[simp] theorem ofJump_writesFlags : (Instr.ofJump c v).writesFlags = false := by cases c <;> rfl
@[simp] theorem ofJump_stores : (Instr.ofJump c v).stores = false := by cases c <;> rfl
@[simp] theorem ofJump_ending : (Instr.ofJump c v).ending = none := by cases c <;> rfl
@[simp] theorem ofJump_badSelector : (Instr.ofJump c v).badSelector = none := by cases c <;> rfl
@[simp] theorem ofAlu_writesFlags : (Instr.ofAlu f rA rB).writesFlags = true := by cases f <;> rfl
@[simp] theorem ofAlu_stores : (Instr.ofAlu f rA rB).stores = false := by cases f <;> rfl
@[simp] theorem ofAlu_ending : (Instr.ofAlu f rA rB).ending = none := by cases f <;> rfl
@[simp] theorem ofAlu_badSelector : (Instr.ofAlu f rA rB).badSelector = none := by cases f <;> rfl
end

namespace Machine

variable {s t : State} {i : Instr}

theorem exec_ofMove (c : Cond) (rA rB : Nybble) (s : State) : exec (Instr.ofMove c rA rB) s = moveFrame c rA rB s := by
  cases c <;> rfl

theorem exec_ofAlu (f : AluFn) (rA rB : Nybble) (s : State) : exec (Instr.ofAlu f rA rB) s = aluFrame f rA rB s := by
  cases f <;> rfl

theorem exec_illegalAluFunction (fn : Nybble) (s : State) :
    exec (.illegalAluFunction fn) s = .next { s with stat := .ins } := rfl

theorem exec_badSelectorMove (sel : Nybble) (s : State) :
    exec (.badSelectorMove sel) s = .next { s with fatal := some ⟨s.pc, sel⟩ } := rfl

theorem exec_badSelectorJump (sel : Nybble) (s : State) :
    exec (.badSelectorJump sel) s = .next { s with fatal := some ⟨s.pc, sel⟩ } := rfl

/-- What instruction `i` can make of state `s`. Of the registers nothing is said. -/
structure Leaves (i : Instr) (s t : State) : Prop where
  cfg : t.cfg = s.cfg
  sim : t.sim = s.sim
  pc : t.pc = s.pc ∨ t.pc.toNat < s.cfg.memSize
  cc : t.cc = s.cc ∨ i.writesFlags = true
  mem : t.mem = s.mem ∨ i.stores = true ∧ ∃ a v, a + 8 ≤ s.cfg.memSize ∧ t.mem = s.mem.writeWord a v
  stat : t.stat = i.ending.getD s.stat ∨ (i.ending = none ∧ t.stat = .adr)
  fatal : t.fatal = (i.badSelector.map fun sel => ⟨s.pc, sel⟩).or s.fatal

section
variable {u : State}

theorem Leaves.refl (hend : i.ending = none) (hsel : i.badSelector = none) : Leaves i s s :=
  ⟨rfl, rfl, .inl rfl, .inl rfl, .inl rfl, .inl (by rw [hend]; rfl), by rw [hsel]; rfl⟩

theorem Leaves.fault (h : Leaves i s u) (hend : i.ending = none) : Leaves i s { u with stat := .adr } :=
  { h with stat := .inr ⟨hend, rfl⟩ }

theorem Leaves.writePc {v : Word} (h : Leaves i s u) (hv : v.toNat < s.cfg.memSize) : Leaves i s { u with pc := v } :=
  { h with pc := .inr hv }

theorem Leaves.writeRegs (h : Leaves i s u) (r : Vector Word 14) : Leaves i s { u with regs := r } := { h with }

theorem Leaves.writeCc (h : Leaves i s u) (hi : i.writesFlags = true) (c : Byte) : Leaves i s { u with cc := c } :=
  { h with cc := .inr hi }

theorem Leaves.writeWord {a : Nat} (h : Leaves i s u) (hi : i.stores = true) (ha : a + 8 ≤ s.cfg.memSize) (v : Word) :
    Leaves i s { u with mem := s.mem.writeWord a v } :=
  { h with mem := .inr ⟨hi, a, v, ha, rfl⟩ }

/-- No instruction changes anything its frame does not name. -/
theorem exec_leaves (h : exec i s = .next t) : Leaves i s t := by
  cases i using Instr.familyCases with
  | halt =>
    obtain rfl := Host.Outcome.next.inj h
    exact ⟨rfl, rfl, .inl rfl, .inl rfl, .inl rfl, .inl rfl, rfl⟩
  | nop =>
    have h0 : Leaves .nop s s := .refl rfl rfl
    rcases writePc_last_cases h with ⟨-, rfl⟩ | ⟨hpc, rfl⟩
    · exact h0.fault rfl
    · exact h0.writePc hpc
  | move c rA rB =>
    have hend := ofMove_ending c rA rB
    have h0 : Leaves (.ofMove c rA rB) s s := .refl hend (ofMove_badSelector c rA rB)
    rcases moveFrame_cases (exec_ofMove .. ▸ h) with ⟨-, rfl⟩ | ⟨hpc, ⟨-, rfl⟩ | ⟨-, -, rfl⟩ | ⟨-, v, hB, -, rfl⟩⟩
    · exact h0.fault hend
    · exact h0.writePc hpc
    · exact (h0.writePc hpc).fault hend
    · exact (h0.writePc hpc).writeRegs _
  | irmov rB v =>
    have h0 : Leaves (.irmov rB v) s s := .refl rfl rfl
    rcases execIrmov_cases h with ⟨-, rfl⟩ | ⟨hB, ⟨-, rfl⟩ | ⟨hpc, rfl⟩⟩
    · exact h0.fault rfl
    · exact (h0.fault rfl).writeRegs _
    · exact (h0.writePc hpc).writeRegs _
  | rmmov rA rB d =>
    have h0 : Leaves (.rmmov rA rB d) s s := .refl rfl rfl
    rcases execRmmov_cases h with ⟨-, rfl⟩ | ⟨base, v, -, -, ⟨-, rfl⟩ | ⟨ha, ⟨-, rfl⟩ | ⟨hpc, rfl⟩⟩⟩
    · exact h0.fault rfl
    · exact h0.fault rfl
    · exact (h0.writeWord rfl ha v).fault rfl
    · exact (h0.writeWord rfl ha v).writePc hpc
  | mrmov rA rB d =>
    have h0 : Leaves (.mrmov rA rB d) s s := .refl rfl rfl
    rcases execMrmov_cases h with ⟨-, rfl⟩ | ⟨base, -, ⟨-, rfl⟩ | ⟨-, hA, ⟨-, rfl⟩ | ⟨hpc, rfl⟩⟩⟩
    · exact h0.fault rfl
    · exact h0.fault rfl
    · exact (h0.fault rfl).writeRegs _
    · exact (h0.writePc hpc).writeRegs _
  | alu f rA rB =>
    have hend := ofAlu_ending f rA rB
    have hcc := ofAlu_writesFlags f rA rB
    have h0 : Leaves (.ofAlu f rA rB) s s := .refl hend (ofAlu_badSelector f rA rB)
    rcases aluFrame_cases (exec_ofAlu .. ▸ h) with ⟨-, rfl⟩ | ⟨a, b, hB, -, -, ⟨-, rfl⟩ | ⟨hpc, rfl⟩⟩
    · exact h0.fault hend
    · exact ((h0.writeCc hcc (aluFlags f a b)).fault hend).writeRegs _
    · exact ((h0.writeCc hcc (aluFlags f a b)).writePc hpc).writeRegs _
  | jump c v =>
    have hend := ofJump_ending c v
    have h0 : Leaves (.ofJump c v) s s := .refl hend (ofJump_badSelector c v)
    rcases jumpFrame_cases (exec_ofJump .. ▸ h) with ⟨-, rfl⟩ | ⟨hpc, rfl⟩
    · exact h0.fault hend
    · exact h0.writePc hpc
  | call v =>
    have h0 : Leaves (.call v) s (s.setSp s.pushAddress) := (Leaves.refl rfl rfl).writeRegs _
    rcases execCall_cases h with ⟨-, rfl⟩ | ⟨ha, ⟨-, rfl⟩ | ⟨hpc, rfl⟩⟩
    · exact h0.fault rfl
    · exact (h0.writeWord rfl ha _).fault rfl
    · exact (h0.writeWord rfl ha _).writePc hpc
  | ret =>
    have h0 : Leaves .ret s s := .refl rfl rfl
    rcases execRet_cases h with ⟨-, rfl⟩ | ⟨-, hpc, rfl⟩
    · exact h0.fault rfl
    · exact (h0.writePc hpc).writeRegs _
  | push rA =>
    have h0 : Leaves (.push rA) s (s.setSp s.pushAddress) := (Leaves.refl rfl rfl).writeRegs _
    rcases execPush_cases h with ⟨-, rfl⟩ | ⟨v, -, ⟨-, rfl⟩ | ⟨ha, ⟨-, rfl⟩ | ⟨hpc, rfl⟩⟩⟩
    · exact h0.fault rfl
    · exact h0.fault rfl
    · exact (h0.writeWord rfl ha v).fault rfl
    · exact (h0.writeWord rfl ha v).writePc hpc
  | pop rA =>
    have h0 : Leaves (.pop rA) s s := .refl rfl rfl
    rcases execPop_cases h with ⟨-, rfl⟩ | ⟨s1, -, hs1, hlast⟩
    · exact h0.fault rfl
    · obtain ⟨hA, rfl⟩ := popRegs_eq_some.1 hs1
      rcases hlast with ⟨-, rfl⟩ | ⟨hpc, rfl⟩
      · exact (h0.fault rfl).writeRegs _
      · exact (h0.writePc hpc).writeRegs _
  | badSelectorMove sel | badSelectorJump sel =>
    obtain rfl := Host.Outcome.next.inj h
    exact ⟨rfl, rfl, .inl rfl, .inl rfl, .inl rfl, .inl rfl, rfl⟩
  | illegalAluFunction fn | illegalBaseOpcode b =>
    obtain rfl := Host.Outcome.next.inj h
    exact ⟨rfl, rfl, .inl rfl, .inl rfl, .inl rfl, .inl rfl, rfl⟩

end

end Machine
end Sys2Proof
end

section
/-! SUPPORT. Statements about every step (42_engine_step.md): how it can end, what it can write, and the invariant. Each is
read off the frame of the meanings and the header at `PC`. -/

namespace Sys2Proof

variable {b : Byte} {used : List Byte} {i : Instr}

/-! What a header says of the instruction it begins. -/

namespace Machine

theorem ending_of_encodes (h : Encodes b used i) :
    i.ending = if hi b = 0 then some .hlt else if illegalHeader b then some .ins else none := by
  cases h with
  | illegalBaseOpcode h =>
    have h0 : hi b ≠ 0 := fun h0 => absurd h (by rw [h0]; decide)
    rw [if_neg h0, if_pos ((illegalHeader_iff b).2 (.inl h))]
    rfl
  | illegalAluFunction h => simp [illegalHeader_iff, nybbleOfBaseOp, h, Instr.ending]
  | alu f rA rB => simp [illegalHeader_iff, nybbleOfBaseOp, nybbleOfAluFn_lt f]
  | move c rA rB => simp [illegalHeader_iff, nybbleOfBaseOp]
  | jump c v => simp [illegalHeader_iff, nybbleOfBaseOp]
  | badSelectorMove h => simp [illegalHeader_iff, nybbleOfBaseOp, Instr.ending]
  | badSelectorJump h => simp [illegalHeader_iff, nybbleOfBaseOp, Instr.ending]
  | halt h => simp [h, Instr.ending]
  | _ h => simp [illegalHeader_iff, h, Instr.ending]

theorem badSelector_of_encodes (h : Encodes b used i) :
    i.badSelector = if badSelectorHeader b then some (lo b) else none := by
  cases h with
  | badSelectorMove h => simp [badSelectorHeader_iff, nybbleOfBaseOp, h, Instr.badSelector]
  | badSelectorJump h => simp [badSelectorHeader_iff, nybbleOfBaseOp, h, Instr.badSelector]
  | move c rA rB => simp [badSelectorHeader_iff, nybbleOfBaseOp, nybbleOfCond_lt c]
  | jump c v => simp [badSelectorHeader_iff, nybbleOfBaseOp, nybbleOfCond_lt c]
  | alu f rA rB => simp [badSelectorHeader_iff, nybbleOfBaseOp]
  | illegalAluFunction h => simp [badSelectorHeader_iff, nybbleOfBaseOp, Instr.badSelector]
  | illegalBaseOpcode h =>
    have hnot : ∀ b : Byte, 0xC ≤ (hi b).toNat → ¬ badSelectorHeader b := by decide
    rw [if_neg (hnot b h)]
    rfl
  | _ h => simp [badSelectorHeader_iff, h, Instr.badSelector]

theorem writesFlags_of_encodes (h : Encodes b used i) (hwrites : i.writesFlags = true) :
    0x60 ≤ b.toNat ∧ b.toNat ≤ 0x63 := by
  cases h with
  | alu f rA rB => cases f <;> decide
  | move c rA rB => simp at hwrites
  | jump c v => simp at hwrites
  | _ => cases hwrites

theorem stores_of_encodes (h : Encodes b used i) (hstores : i.stores = true) :
    (hi b).toNat ∈ [0x4, 0x8, 0xA] := by
  cases h with
  | rmmov h => simp [h]
  | call h => simp [h]
  | push h => simp [h]
  | alu f rA rB => simp at hstores
  | move c rA rB => simp at hstores
  | jump c v => simp at hstores
  | _ => cases hstores

/-! How a step ends. -/

variable {s t : State}

theorem endedWell_iff : s.endedWell = true ↔ s.stat = .hlt ∧ s.fatal = none := by simp [State.endedWell]

/-- Only an instruction that always ends the run leaves `HLT` or `INS`. -/
theorem Leaves.stat_iff (h : Leaves i s t) (hs : s.stat = .run) {v : RunStatus} (hv : v = .hlt ∨ v = .ins) :
    t.stat = v ↔ i.ending = some v := by
  have hstat := h.stat
  cases he : i.ending with
  | some w =>
    have hend : t.stat = w := by simpa [he] using hstat
    rw [hend, Option.some_inj]
  | none =>
    have hrun : t.stat = .run ∨ t.stat = .adr := by simpa [he, hs] using hstat
    rcases hrun with h | h <;> rcases hv with rfl | rfl <;> simp [h]

/-- A step of a running engine leaves `HLT` and `INS` where the header says so, and the fatal report likewise. -/
theorem step_ending (hf : s.fatal = none) (hs : s.stat = .run) (hpc : s.pc.toNat < s.cfg.memSize)
    (h : step s = .next t) :
    (t.stat = .hlt ↔ hi (s.mem.read s.pc.toNat) = 0) ∧
    (t.stat = .ins ↔ illegalHeader (s.mem.read s.pc.toNat)) ∧
    t.fatal = if badSelectorHeader (s.mem.read s.pc.toNat) then some ⟨s.pc, lo (s.mem.read s.pc.toNat)⟩ else none := by
  have hnotIllegal : ∀ b : Byte, hi b = 0 → ¬ illegalHeader b := by decide
  rcases step_cases_of_running hf hs hpc h with ⟨hlen, rfl⟩ | ⟨i, used, henc, hexec⟩
  · have hmore := mt (headerLength_eq_one_iff _).2 hlen.ne'
    simp only [not_or] at hmore
    obtain ⟨hhalt, -, -, hillegal, hbad⟩ := hmore
    exact ⟨iff_of_false nofun hhalt, iff_of_false nofun (by simpa using hillegal),
      by rw [if_neg (by simpa using hbad)]; exact hf⟩
  · have hl := exec_leaves hexec
    rw [hl.stat_iff hs (.inl rfl), hl.stat_iff hs (.inr rfl), hl.fatal, ending_of_encodes henc,
      badSelector_of_encodes henc, hf]
    generalize s.mem.read s.pc.toNat = b
    refine ⟨by split <;> simp_all, ?_, by split <;> rfl⟩
    by_cases h0 : hi b = 0
    · simp only [if_pos h0]
      exact iff_of_false nofun (hnotIllegal b h0)
    · simp only [if_neg h0]
      split <;> simp_all

/-- Settles O14: the frame gives status and fatal latch by the instruction, and the header gives the instruction; a header
that misses a byte is none of the three kinds. -/
theorem stepEndsAsTheHeaderSays : Obligations.StepEndsAsTheHeaderSays := by
  intro s t hf hs hpc h
  have hnotBad : ∀ b : Byte, hi b = 0 → ¬ badSelectorHeader b := by decide
  obtain ⟨hhlt, hins, hfatal⟩ := step_ending hf hs hpc h
  refine ⟨hhlt, hins, by rw [hfatal]; split <;> simp [*], ?_⟩
  rw [endedWell_iff, hhlt, hfatal]
  exact and_iff_left_of_imp fun h0 => if_neg (hnotBad _ h0)

/-! The fatal error. -/

/-- A header that raises the fatal error is a whole instruction of one byte. -/
theorem runsFrom_badSelector {b : Byte} (h : badSelectorHeader b) :
    ∃ i, runsFrom (· = b) 1 (fun _ _ _ => i) ∧ ∀ s, exec i s = .next { s with fatal := some ⟨s.pc, lo b⟩ } := by
  obtain ⟨hop, hsel⟩ := (badSelectorHeader_iff b).1 h
  rcases hop with hop | hop
  · have hb : b = headerOf .cmov (lo b) := eq_headerOf (baseOpOfNybble_eq_some.2 hop)
    refine ⟨.badSelectorMove (lo b), runsFrom_none fun b' rest hb' => ?_, exec_badSelectorMove (lo b)⟩
    rw [hb', ← decode_badSelectorMove hsel, ← hb]
  · have hb : b = headerOf .jump (lo b) := eq_headerOf (baseOpOfNybble_eq_some.2 hop)
    refine ⟨.badSelectorJump (lo b), runsFrom_none fun b' rest hb' => ?_, exec_badSelectorJump (lo b)⟩
    rw [hb', ← decode_badSelectorJump hsel, ← hb]

/-- Settles O22: a bad selector is known from its header alone, in the last byte of memory too. -/
theorem badSelectorIsFatal : Obligations.BadSelectorIsFatal := by
  intro s
  refine ⟨fun sel => exec_badSelectorMove sel s, fun sel => exec_badSelectorJump sel s, fun hf hs hpc hbad => ?_⟩
  obtain ⟨i, hruns, hexec⟩ := runsFrom_badSelector hbad
  rw [(hruns s hf hs hpc rfl).1 hpc, hexec]

/-- Settles O21: an ALU header with a function that is none is known from its header alone. -/
theorem illegalAluFunctionFaults : Obligations.IllegalAluFunctionFaults := by
  intro s
  refine ⟨fun fn => exec_illegalAluFunction fn s, fun hf hs hpc hge hle => ?_⟩
  have hnybbles : ∀ b : Byte, 0x64 ≤ b.toNat → b.toNat ≤ 0x6F → hi b = 6 ∧ 4 ≤ (lo b).toNat := by decide
  obtain ⟨hop, hfn⟩ := hnybbles _ hge hle
  generalize hb : s.mem.read s.pc.toNat = b at hop hfn
  have hheader : b = headerOf .alu (lo b) := eq_headerOf (baseOpOfNybble_eq_some.2 hop)
  have hruns : runsFrom (· = b) 1 (fun _ _ _ => .illegalAluFunction (lo b)) :=
    runsFrom_none fun b' rest hb' => by rw [hb', ← decode_illegalAluFunction hfn, ← hheader]
  rw [(hruns s hf hs hpc hb).1 hpc, exec_illegalAluFunction]

/-- Settles O55: a step's reply is the fatal latch it leaves, which a running engine's header decides and a stopped engine
keeps. -/
theorem fatalErrorIsReportedToTheDriver : Obligations.FatalErrorIsReportedToTheDriver := by
  have hquiet {s t : State} (h : step s = .next t) (ht : t.fatal = none) : (drive .step s).1 = .done := by
    rw [drive_step h, ht]
  refine ⟨fun s hf hs hpc => ⟨fun hbad => ?bad, fun hgood => ?good⟩, fun s => drive_readFatal, fun s r hr => ?latched,
    fun s hf hstop => ?stopped⟩
  case bad => rw [drive_step ((badSelectorIsFatal s).2.2 hf hs hpc hbad)]
  case good =>
    obtain ⟨t, ht⟩ := stepAlwaysAnswersNext s
    exact hquiet ht ((step_ending hf hs hpc ht).2.2.trans (if_neg hgood))
  case latched =>
    have hstop : s.stopped = true := stopped_iff.2 (.inr (by rw [hr]; rfl))
    rw [drive_step (step_of_stopped hstop), hr]
  case stopped =>
    by_cases hs : s.stat = .run
    · have hpc : s.cfg.memSize ≤ s.pc.toNat := hstop.resolve_left (not_not.2 hs)
      exact hquiet ((missingInstructionByteFaults s hf hs).1 hpc) hf
    · exact hquiet (step_of_stopped (stopped_iff.2 (.inl hs))) hf

/-! What a step writes. -/

/-- Settles O16: where memory changed an instruction that stores was executed, and its header is one of the three. -/
theorem onlyStoresChangeMemory : Obligations.OnlyStoresChangeMemory := by
  intro s t h hne
  rcases step_cases h with rfl | rfl | ⟨hpc, i, used, henc, hexec⟩
  · exact absurd rfl hne
  · exact absurd rfl hne
  · have hstores := ((exec_leaves hexec).mem.resolve_left hne).1
    exact ⟨hpc, stores_of_encodes henc hstores⟩

theorem step_keeps_cfg_sim (h : step s = .next t) : t.cfg = s.cfg ∧ t.sim = s.sim := by
  rcases step_cases h with rfl | rfl | ⟨-, i, used, -, hexec⟩
  · exact ⟨rfl, rfl⟩
  · exact ⟨rfl, rfl⟩
  · exact ⟨(exec_leaves hexec).cfg, (exec_leaves hexec).sim⟩

/-! The invariant. -/

/-- An instruction's frame keeps the invariant, the captured selector being that of a well-formed instruction. -/
theorem Leaves.inv (h : Leaves i s t) (hwf : i.wellFormed = true) (hs : s.Inv) : t.Inv := by
  obtain ⟨hcfg, hpc, hmem, hbelow, hfatal, hsim⟩ := hs
  refine ⟨h.cfg ▸ hcfg, ?pc, ?mem, ?below, ?fatal, h.sim ▸ hsim⟩
  case pc => rw [h.cfg]; exact h.pc.elim (fun hp => hp ▸ hpc) id
  case mem =>
    rcases h.mem with hm | ⟨-, a, v, -, hm⟩
    · exact hm ▸ hmem
    · exact hm ▸ writeWord_wf hmem a v
  case below =>
    rw [h.cfg]
    rcases h.mem with hm | ⟨-, a, v, ha, hm⟩
    · exact hm ▸ hbelow
    · exact hm ▸ writeWord_below v hbelow ha
  case fatal =>
    intro r hr
    rw [h.fatal] at hr
    cases hsel : i.badSelector with
    | none => exact hfatal r (by simpa [hsel] using hr)
    | some sel =>
      obtain rfl : ⟨s.pc, sel⟩ = r := by simpa [hsel] using hr
      cases i with
      | badSelectorMove sel' | badSelectorJump sel' =>
        obtain rfl := Option.some.inj hsel
        exact of_decide_eq_true hwf
      | _ => cases hsel

/-- Settles O12: a stopped engine and a missing byte change nothing the invariant speaks of; an executed instruction is
well-formed and keeps to its frame. -/
theorem stepKeepsTheInvariant : Obligations.StepKeepsTheInvariant := by
  intro s t hs h
  rcases step_cases h with rfl | rfl | ⟨-, i, used, henc, hexec⟩
  · exact hs
  · exact hs
  · exact (exec_leaves hexec).inv (wellFormed_of_encodes henc) hs

/-- Settles O13: a closed state. -/
theorem resetMeetsTheInvariant : Obligations.ResetMeetsTheInvariant := by
  unfold Obligations.ResetMeetsTheInvariant
  decide

end Machine
end Sys2Proof
end

section
/-! SUPPORT. The invariant over the driver's calls (60_exceptions.md R247): each transaction and each store operation keeps
it, whether or not it fails. -/

namespace Sys2Proof.Machine

variable {s t : State}

/-! The bounds of the bubble counts (70_reset_and_hazards.md R279). -/

theorem jumpBubbles_le (cfg : Config) (fn : Nybble) (cc : Byte) : jumpBubbles cfg fn cc ≤ 2 := by
  unfold jumpBubbles
  repeat' split
  all_goals omega

theorem controlBubbles_le (cfg : Config) (op : BaseOp) (fn : Nybble) (cc : Byte) : controlBubbles cfg op fn cc ≤ 3 := by
  cases op with
  | jump => exact (jumpBubbles_le cfg fn cc).trans (by omega)
  | _ => simp [controlBubbles]

theorem classify_ctl_le {c : Classified} (h : s.classify = some c) : c.ctl ≤ 3 := by
  unfold State.classify at h
  split at h
  · cases h
  split at h
  · cases h; simp
  split at h
  · split at h
    · cases h
    · cases h; exact controlBubbles_le ..
  · cases h; exact controlBubbles_le ..

theorem bubbles_le {c : Classified} (h : s.classify = some c) (w : Window) : bubbles c w ≤ 6 :=
  Nat.add_le_add (classify_ctl_le h) (dataHazard_le c.srcs w)

/-- Draining counts down. -/
theorem drain_inv {m : StallSim} (h : m.countdown ≤ (if m.stalling then 6 else 5)) : m.drain.inv := by
  have : (if m.stalling then 6 else 5) = (if m.stalling then 5 else 4) + 1 := by split <;> rfl
  rw [StallSim.inv, drain_countdown, drain_stalling]
  omega

/-- The hazard simulator's own state is the only part of the invariant a tick can touch. -/
theorem inv_with_sim (h : s.Inv) {m : StallSim} (hm : m.inv) : { s with sim := m }.Inv := by
  obtain ⟨hcfg, hpc, hmem, hbelow, hfatal, -⟩ := h
  exact ⟨hcfg, hpc, hmem, hbelow, hfatal, hm⟩

theorem inv_with_mem (h : s.Inv) {m : Memory} (hwf : m.wf) (hbelow : m.below s.cfg.memSize) : { s with mem := m }.Inv := by
  obtain ⟨hcfg, hpc, -, -, hfatal, hsim⟩ := h
  exact ⟨hcfg, hpc, hwf, hbelow, hfatal, hsim⟩

theorem tick_keeps_inv (h : s.Inv) : (tick s).2.Inv := by
  obtain ⟨-, -, hmem, hbelow, -, hsim⟩ := id h
  rcases tick_cases s with ⟨-, ht⟩ | ⟨-, hc, ht⟩ | ⟨-, hc, hs, ht⟩ | ⟨-, -, -, -, ht⟩ | ⟨c, -, hc, hs, -, -, ht⟩ |
    ⟨c, -, -, -, hcl, -, ht⟩ <;> rw [ht]
  · exact h
  · refine inv_with_sim h (drain_inv (hsim.trans ?_))
    split <;> omega
  · exact inv_with_sim h (by simp [StallSim.inv, hc])
  · exact h
  · exact inv_with_sim h (by simp [StallSim.inv, hc])
  · exact inv_with_sim h (drain_inv (by simpa using bubbles_le hcl _))

theorem resetTransaction_inv (h : s.Inv) (r : Vector Word 14) (c : Byte) (image : List Host.Cell) :
    (s.resetTransaction r c image).Inv := by
  obtain ⟨hcfg, -⟩ := h
  obtain ⟨hwf, hbelow⟩ := resetTransaction_mem s r c image
  exact ⟨hcfg, hcfg.2.2, hwf, hbelow, by simp [fatalInv], by simp [StallSim.inv, StallSim.start]⟩

theorem storeRead_inv {α : Type} (h : s.Inv) (access : Option α) (reply : α → DriverReply) :
    (storeRead s access reply).2.Inv := by
  cases access <;> exact h

theorem storeWrite_inv (h : s.Inv) {access : Option State} (hw : ∀ t, access = some t → t.Inv) :
    (storeWrite s access).2.Inv := by
  cases access with
  | none => exact h
  | some t => exact hw t rfl

/-- Settles O53: reads and the writes of `CC`, `STAT` and the registers touch nothing the invariant speaks of; `PC` and
memory are written inside their ranges only. -/
theorem everyDriverCallKeepsTheInvariant : Obligations.EveryDriverCallKeepsTheInvariant := by
  intro c s h
  obtain ⟨hcfg, hpc, hmem, hbelow, hfatal, hsim⟩ := id h
  cases c with
  | step =>
    obtain ⟨t, ht⟩ := stepAlwaysAnswersNext s
    rw [drive_step ht]
    exact stepKeepsTheInvariant s t h ht
  | tick => exact tick_keeps_inv h
  | reset r c image => exact resetTransaction_inv h r c image
  | writePc v =>
    refine storeWrite_inv h fun t ht => ?_
    obtain ⟨hv, rfl⟩ := writePc_eq_some.1 ht
    exact ⟨hcfg, hv, hmem, hbelow, hfatal, hsim⟩
  | writeReg i v =>
    refine storeWrite_inv h fun t ht => ?_
    obtain ⟨-, rfl⟩ := writeReg_eq_some.1 ht
    exact h
  | writeByte a b =>
    refine storeWrite_inv h fun t ht => ?_
    obtain ⟨ha, rfl⟩ := writeByte_eq_some.1 ht
    exact inv_with_mem h (write_wf hmem _ _) (write_below hbelow ha)
  | writeWord a v =>
    refine storeWrite_inv h fun t ht => ?_
    obtain ⟨ha, rfl⟩ := writeWord_eq_some.1 ht
    exact inv_with_mem h (writeWord_wf hmem _ _) (writeWord_below v hbelow ha)
  | readReg i => exact storeRead_inv h ..
  | readByte a => exact storeRead_inv h ..
  | readWord a => exact storeRead_inv h ..
  | readPc | readCc | writeCc b | readStat | writeStat v | readFatal => exact h

end Sys2Proof.Machine
end

section
/-! SUPPORT. The store (10_state.md R38, 20_memory.md): memory as data and as what its addresses read as, and the driver's
reads, writes and reset. -/

namespace Sys2Proof.Machine

variable {s t : State}

/-! Memory as data (20_memory.md R50). -/

theorem lt_of_wf_cons {x : Nat} {c : Byte} {m : Memory} (h : Memory.wf ((x, c) :: m)) : ∀ e ∈ m, x < e.1 :=
  (List.pairwise_cons.1 h.1).1

theorem head_ne_fill {x : Nat} {c : Byte} {m : Memory} (h : Memory.wf ((x, c) :: m)) : c ≠ Memory.fill :=
  h.2 (x, c) (List.mem_cons_self ..)

/-- Below its first entry a memory reads as unlisted. -/
theorem read_cons_of_lt {a x : Nat} {c : Byte} {m : Memory} (hm : Memory.wf ((x, c) :: m)) (h : a < x) :
    Memory.read ((x, c) :: m) a = Memory.fill := by
  refine read_of_lt_all fun e he => ?_
  rcases List.mem_cons.1 he with rfl | he
  · exact h
  · exact h.trans (lt_of_wf_cons hm e he)

@[simp] theorem read_cons_self {x : Nat} {c : Byte} {m : Memory} : Memory.read ((x, c) :: m) x = c := if_pos rfl

theorem read_cons_of_ne {a x : Nat} {c : Byte} {m : Memory} (h : a ≠ x) :
    Memory.read ((x, c) :: m) a = m.read a := if_neg h

/-- A first entry is told by its read from every memory that starts later. -/
theorem head_read_ne {x : Nat} {c : Byte} {m m' : Memory} (hm : Memory.wf ((x, c) :: m))
    (h' : m'.read x = Memory.fill) : ¬ ∀ a, Memory.read ((x, c) :: m) a = m'.read a := fun h =>
  head_ne_fill hm (by simpa [h'] using h x)

/-- Memories in canonical form that read the same are the same list, entry by entry. -/
theorem eq_of_read_eq {m m' : Memory} (hm : m.wf) (hm' : m'.wf) (h : ∀ a, m.read a = m'.read a) : m = m' := by
  induction m generalizing m' with
  | nil =>
    cases m' with
    | nil => rfl
    | cons e m' => exact absurd (fun a => (h a).symm) (head_read_ne hm' rfl)
  | cons e m ih =>
    obtain ⟨x, c⟩ := e
    cases m' with
    | nil => exact absurd h (head_read_ne hm rfl)
    | cons e' m' =>
      obtain ⟨y, d⟩ := e'
      rcases lt_trichotomy x y with hlt | rfl | hgt
      · exact absurd h (head_read_ne hm (read_cons_of_lt hm' hlt))
      · have hhead : c = d := by simpa using h x
        have htail : m = m' := by
          refine ih (wf_tail hm) (wf_tail hm') fun a => ?_
          by_cases ha : a = x
          · rw [ha, read_of_lt_all (lt_of_wf_cons hm), read_of_lt_all (lt_of_wf_cons hm')]
          · simpa only [read_cons_of_ne ha] using h a
        rw [hhead, htail]
      · exact absurd (fun a => (h a).symm) (head_read_ne hm' (read_cons_of_lt hm hgt))

/-- Settles O42: by induction on both memories, whose first entries are told apart by a read. -/
theorem equalReadsAreEqualMemories : Obligations.EqualReadsAreEqualMemories := fun _ _ hm hm' =>
  ⟨eq_of_read_eq hm hm', fun h _ => by rw [h]⟩

/-! Words. -/

/-- Settles O41: the range check is the only way to fail, and the laws of the word write say the rest. -/
theorem wordWriteReadsBackLittleEndian : Obligations.WordWriteReadsBackLittleEndian := by
  intro s a v hwf hbelow
  refine ⟨writeWord_eq_none, fun t ht => ?_⟩
  obtain ⟨ha, rfl⟩ := writeWord_eq_some.1 ht
  exact ⟨readWord_eq_some.2 ⟨ha, word_writeWord hwf _ _⟩, fun i hi => read_writeWord_inside hwf _ _ hi,
    fun x hx => read_writeWord_outside _ _ hx, writeWord_wf hwf _ _, writeWord_below v hbelow ha, rfl, rfl⟩

/-! The driver's store operations. -/

theorem drive_readReg (i : Nybble) : drive (.readReg i) s = storeRead s (s.readReg i) .word := rfl
theorem drive_writeReg (i : Nybble) (v : Word) : drive (.writeReg i v) s = storeWrite s (s.writeReg i v) := rfl
theorem drive_writePc (v : Word) : drive (.writePc v) s = storeWrite s (s.writePc v) := rfl
theorem drive_readByte (a : Word) : drive (.readByte a) s = storeRead s (s.readByte a) .byte := rfl
theorem drive_writeByte (a : Word) (b : Byte) : drive (.writeByte a b) s = storeWrite s (s.writeByte a b) := rfl
theorem drive_readWord (a : Word) : drive (.readWord a) s = storeRead s (s.readWord a) .word := rfl
theorem drive_writeWord (a v : Word) : drive (.writeWord a v) s = storeWrite s (s.writeWord a v) := rfl

/-- What a call that writes register `i` does. -/
theorem drive_writeReg_of_lt {i : Nybble} (hi : i.toNat < 14) (v : Word) :
    ∃ t, drive (.writeReg i v) s = (.done, t) ∧ drive (.readReg i) t = (.word v, t) ∧
      regsSameBut [i] s t ∧ memSame s t ∧ t.pc = s.pc ∧ t.cc = s.cc ∧ controlSame s t := by
  obtain ⟨t, ht⟩ : ∃ t, s.writeReg i v = some t := ⟨_, writeReg_eq_some.2 ⟨hi, rfl⟩⟩
  refine ⟨t, by rw [drive_writeReg, ht, storeWrite_some], ?_, fun j hj => ?_, ?_⟩
  · rw [drive_readReg, readReg_of_writeReg ht, if_pos rfl, storeRead_some]
  · rw [readReg_of_writeReg ht, if_neg (by simpa using hj)]
  · obtain ⟨-, rfl⟩ := writeReg_eq_some.1 ht
    exact ⟨fun _ => rfl, rfl, rfl, rfl, rfl, rfl, rfl⟩

/-- What a call that writes a byte inside memory does. -/
theorem drive_writeByte_of_lt (hwf : s.mem.wf) {a : Word} (ha : a.toNat < s.cfg.memSize) (b : Byte) :
    ∃ t, drive (.writeByte a b) s = (.done, t) ∧ drive (.readByte a) t = (.byte b, t) ∧
      (∀ x : Nat, x ≠ a.toNat → t.mem.read x = s.mem.read x) ∧
      t.regs = s.regs ∧ t.pc = s.pc ∧ t.cc = s.cc ∧ controlSame s t := by
  obtain ⟨t, ht⟩ : ∃ t, s.writeByte a b = some t := ⟨_, writeByte_eq_some.2 ⟨ha, rfl⟩⟩
  have hread : t.readByte a = some b := by
    obtain ⟨-, rfl⟩ := writeByte_eq_some.1 ht
    exact readByte_eq_some.2 ⟨ha, read_write_same hwf _ _⟩
  refine ⟨t, by rw [drive_writeByte, ht, storeWrite_some], by rw [drive_readByte, hread, storeRead_some], ?_⟩
  obtain ⟨-, rfl⟩ := writeByte_eq_some.1 ht
  exact ⟨fun x hx => read_write_other _ _ hx, rfl, rfl, rfl, rfl, rfl, rfl, rfl⟩

/-- What a call that writes a word inside memory does. -/
theorem drive_writeWord_of_le (hwf : s.mem.wf) {a : Word} (ha : a.toNat + 8 ≤ s.cfg.memSize) (v : Word) :
    ∃ t, drive (.writeWord a v) s = (.done, t) ∧ drive (.readWord a) t = (.word v, t) ∧ memSameOutsideWord a s t ∧
      t.regs = s.regs ∧ t.pc = s.pc ∧ t.cc = s.cc ∧ controlSame s t := by
  obtain ⟨t, ht⟩ : ∃ t, s.writeWord a v = some t := ⟨_, writeWord_eq_some.2 ⟨ha, rfl⟩⟩
  have hread : t.readWord a = some v := by
    obtain ⟨-, rfl⟩ := writeWord_eq_some.1 ht
    exact readWord_eq_some.2 ⟨ha, word_writeWord hwf _ _⟩
  refine ⟨t, by rw [drive_writeWord, ht, storeWrite_some], by rw [drive_readWord, hread, storeRead_some], ?_⟩
  obtain ⟨-, rfl⟩ := writeWord_eq_some.1 ht
  exact ⟨fun x hx => read_writeWord_outside _ _ hx, rfl, rfl, rfl, rfl, rfl, rfl, rfl⟩

/-- Settles O54: each operation answers by its accessor, and each accessor fails exactly outside its range. -/
theorem storeFailsOutsideItsRange : Obligations.StoreFailsOutsideItsRange := by
  intro s
  refine ⟨fun v => ?pc, fun i hi => ⟨?_, fun v => ?_⟩, fun i hi => ⟨?readReg, drive_writeReg_of_lt hi⟩,
    fun a ha => ⟨?_, fun b => ?_⟩, fun a ha => ⟨?_, fun v => ?_⟩, fun a ha => ?readByte,
    fun hwf a b ha => drive_writeByte_of_lt hwf ha b, fun a ha => ?readWord, fun hwf a v ha => drive_writeWord_of_le hwf ha v⟩
  case pc =>
    rw [drive_writePc]
    split
    · rename_i hv
      rw [writePc_eq_some.2 ⟨hv, rfl⟩, storeWrite_some]
    · rename_i hv
      rw [writePc_eq_none.2 (Nat.le_of_not_lt hv), storeWrite_none]
  case readReg => exact ⟨_, by rw [drive_readReg, readReg_eq_some.2 ⟨hi, rfl⟩, storeRead_some]⟩
  case readByte => rw [drive_readByte, readByte_eq_some.2 ⟨ha, rfl⟩, storeRead_some]
  case readWord =>
    have hread : s.readWord a = some (s.mem.word a.toNat) := readWord_eq_some.2 ⟨ha, rfl⟩
    exact ⟨_, hread, by rw [drive_readWord, hread, storeRead_some]⟩
  · rw [drive_readReg, readReg_eq_none.2 hi, storeRead_none]
  · rw [drive_writeReg, writeReg_eq_none.2 hi, storeWrite_none]
  · rw [drive_readByte, readByte_eq_none.2 ha, storeRead_none]
  · rw [drive_writeByte, writeByte_eq_none.2 ha, storeWrite_none]
  · rw [drive_readWord, readWord_eq_none.2 ha, storeRead_none]
  · rw [drive_writeWord, writeWord_eq_none.2 ha, storeWrite_none]

/-! The reset transaction's image. -/

/-- Memory with the cells of an image stored one by one, those outside memory left out. -/
def Memory.load (size : Nat) (m : Memory) (image : List Host.Cell) : Memory :=
  image.foldl (fun m c => if c.1 < size then m.write c.1 c.2 else m) m

theorem resetTransaction_mem_eq_load (s : State) (r : Vector Word 14) (c : Byte) (image : List Host.Cell) :
    (s.resetTransaction r c image).mem = Memory.load s.cfg.memSize [] image := rfl

theorem load_cons {size : Nat} {e : Host.Cell} (h : e.1 < size) (m : Memory) (image : List Host.Cell) :
    Memory.load size m (e :: image) = Memory.load size (m.write e.1 e.2) image := by
  rw [Memory.load, List.foldl_cons, if_pos h]
  rfl

/-- An address the image does not list reads as before. -/
theorem read_load_of_notMem {size a : Nat} {image : List Host.Cell} (hin : ∀ e ∈ image, e.1 < size)
    (ha : a ∉ image.map Prod.fst) (m : Memory) : (Memory.load size m image).read a = m.read a := by
  induction image generalizing m with
  | nil => rfl
  | cons e image ih =>
    obtain ⟨he, hin⟩ := List.forall_mem_cons.1 hin
    obtain ⟨hne, ha⟩ : a ≠ e.1 ∧ a ∉ image.map Prod.fst := by simpa using ha
    rw [load_cons he, ih hin ha, read_write_other _ _ hne]

/-- An address the image lists once reads as its byte there. -/
theorem read_load_of_mem {size : Nat} {image : List Host.Cell} (hin : ∀ e ∈ image, e.1 < size)
    (hnodup : (image.map Prod.fst).Nodup) {m : Memory} (hm : m.wf) {e : Host.Cell} (he : e ∈ image) :
    (Memory.load size m image).read e.1 = e.2 := by
  induction image generalizing m with
  | nil => cases he
  | cons e' image ih =>
    obtain ⟨he', hin'⟩ := List.forall_mem_cons.1 hin
    obtain ⟨hnew, hnodup'⟩ := List.nodup_cons.1 hnodup
    rw [load_cons he']
    rcases List.mem_cons.1 he with rfl | he
    · rw [read_load_of_notMem hin' hnew, read_write_same hm]
    · exact ih hin' hnodup' (write_wf hm _ _) he

/-- Settles O56: the transaction's fields as R260 lists them, and memory as the image loaded into an empty one. -/
theorem resetTransactionSetsTheStartState : Obligations.ResetTransactionSetsTheStartState := by
  intro s r c image hnodup hin
  refine ⟨s.resetTransaction r c image, rfl, rfl, rfl, rfl, rfl, rfl, rfl, rfl, rfl, rfl, rfl, fun e he => ?_,
    fun a ha => ?_⟩
  · rw [resetTransaction_mem_eq_load, read_load_of_mem hin hnodup wf_nil he]
  · rw [resetTransaction_mem_eq_load, read_load_of_notMem hin ha]
    rfl

end Sys2Proof.Machine
end

section
/-! SUPPORT. The engine does not read the hazard simulator (70_reset_and_hazards.md R290): every line of a meaning answers
the same from a state with another simulator, up to that simulator. -/

namespace Sys2Proof.Machine

variable {s t : State} {m : StallSim}

/-- The state with another hazard simulator. -/
def State.withSim (s : State) (m : StallSim) : State := { s with sim := m }

/-- What a meaning answers, with another hazard simulator in the state. -/
def resultWithSim (m : StallSim) : Result → Result
  | .next t => .next (t.withSim m)
  | .fault r => .fault r
  | .refused r => .refused r

/-- A line that reads. -/
theorem orAddressFault_withSim {α : Type} {o o' : Option α} {k k' : α → Result} (ho : o' = o)
    (h : ∀ a, k' a = resultWithSim m (k a)) :
    orAddressFault o' (s.withSim m) k' = resultWithSim m (orAddressFault o s k) := by
  subst ho
  cases o' with
  | none => rfl
  | some a => exact h a

/-- A line that writes. -/
theorem orAddressFault_map_withSim {o o' : Option State} {k k' : State → Result} (ho : o' = o.map (·.withSim m))
    (h : ∀ t, k' (t.withSim m) = resultWithSim m (k t)) :
    orAddressFault o' (s.withSim m) k' = resultWithSim m (orAddressFault o s k) := by
  subst ho
  cases o with
  | none => rfl
  | some t => exact h t

theorem writeReg_withSim (i : Nybble) (v : Word) : (s.withSim m).writeReg i v = (s.writeReg i v).map (·.withSim m) := by
  cases h : s.writeReg i v with
  | none => exact writeReg_eq_none.2 ((writeReg_eq_none (s := s)).1 h)
  | some t =>
    obtain ⟨hi, rfl⟩ := writeReg_eq_some.1 h
    exact writeReg_eq_some.2 ⟨hi, rfl⟩

theorem writePc_withSim (v : Word) : (s.withSim m).writePc v = (s.writePc v).map (·.withSim m) := by
  cases h : s.writePc v with
  | none => exact writePc_eq_none.2 ((writePc_eq_none (s := s)).1 h)
  | some t =>
    obtain ⟨hv, rfl⟩ := writePc_eq_some.1 h
    exact writePc_eq_some.2 ⟨hv, rfl⟩

theorem writeWord_withSim (a v : Word) : (s.withSim m).writeWord a v = (s.writeWord a v).map (·.withSim m) := by
  cases h : s.writeWord a v with
  | none => exact writeWord_eq_none.2 ((writeWord_eq_none (s := s)).1 h)
  | some t =>
    obtain ⟨ha, rfl⟩ := writeWord_eq_some.1 h
    exact writeWord_eq_some.2 ⟨ha, rfl⟩

theorem popRegs_withSim (rA : Nybble) (sp v : Word) :
    (s.withSim m).popRegs rA sp v = (s.popRegs rA sp v).map (·.withSim m) := by
  cases h : s.popRegs rA sp v with
  | none => exact popRegs_eq_none.2 ((popRegs_eq_none (s := s)).1 h)
  | some t =>
    obtain ⟨hA, rfl⟩ := popRegs_eq_some.1 h
    exact popRegs_eq_some.2 ⟨hA, rfl⟩

theorem writePc_last_withSim (v : Word) :
    (orAddressFault ((s.withSim m).writePc v) (s.withSim m) fun s1 => .next s1) =
      resultWithSim m (orAddressFault (s.writePc v) s fun s1 => .next s1) :=
  orAddressFault_map_withSim (writePc_withSim v) fun _ => rfl

theorem exec_withSim (i : Instr) (s : State) (m : StallSim) : exec i (s.withSim m) = resultWithSim m (exec i s) := by
  cases i using Instr.familyCases with
  | halt => rfl
  | nop => exact writePc_last_withSim _
  | move c rA rB =>
    rw [exec_ofMove, exec_ofMove]
    refine orAddressFault_map_withSim (writePc_withSim _) fun s1 => ?_
    by_cases hc : condHolds c s.cc = true
    · simp only [State.withSim, hc, if_true]
      exact orAddressFault_withSim rfl fun v => orAddressFault_map_withSim (writeReg_withSim rB v) fun s2 => rfl
    · simp only [State.withSim, hc]
      rfl
  | irmov rB v =>
    exact orAddressFault_map_withSim (writeReg_withSim rB v) fun s1 => writePc_last_withSim _
  | rmmov rA rB d =>
    exact orAddressFault_withSim rfl fun base => orAddressFault_withSim rfl fun v =>
      orAddressFault_map_withSim (writeWord_withSim _ v) fun s1 => writePc_last_withSim _
  | mrmov rA rB d =>
    exact orAddressFault_withSim rfl fun base => orAddressFault_withSim rfl fun v =>
      orAddressFault_map_withSim (writeReg_withSim rA v) fun s1 => writePc_last_withSim _
  | alu f rA rB =>
    rw [exec_ofAlu, exec_ofAlu]
    exact orAddressFault_withSim rfl fun a => orAddressFault_withSim rfl fun b =>
      orAddressFault_map_withSim (writeReg_withSim rB _) fun s1 =>
        writePc_last_withSim (s := { s1 with cc := aluFlags f a b }) _
  | jump c v =>
    rw [exec_ofJump, exec_ofJump]
    exact writePc_last_withSim _
  | call v =>
    have hstore := writeWord_withSim (s := s.setSp s.pushAddress) (m := m) s.pushAddress (s.pc + 9)
    exact orAddressFault_map_withSim (s := s.setSp s.pushAddress) hstore fun s2 => writePc_last_withSim _
  | ret =>
    exact orAddressFault_withSim rfl fun v => orAddressFault_map_withSim (writePc_withSim v) fun s1 => rfl
  | push rA =>
    have hread : (pushOperandState (s.withSim m) ((s.setSp s.pushAddress).withSim m)).readReg rA =
        (pushOperandState s (s.setSp s.pushAddress)).readReg rA := by
      unfold pushOperandState
      cases h : s.cfg.spOperand <;> simp only [State.withSim, h] <;> rfl
    have hstore (v : Word) := writeWord_withSim (s := s.setSp s.pushAddress) (m := m) s.pushAddress v
    exact orAddressFault_withSim (s := s.setSp s.pushAddress) (m := m) hread fun v =>
      orAddressFault_map_withSim (s := s.setSp s.pushAddress) (hstore v) fun s2 => writePc_last_withSim _
  | pop rA =>
    exact orAddressFault_withSim rfl fun v => orAddressFault_map_withSim (popRegs_withSim rA _ v) fun s1 =>
      writePc_last_withSim _
  | badSelectorMove sel => rfl
  | illegalAluFunction fn => rfl
  | badSelectorJump sel => rfl
  | illegalBaseOpcode b => rfl

/-- Settles O17: no frame names the parameters or the simulator, and no line of a meaning reads the simulator. -/
theorem stepIgnoresTheHazardSimulator : Obligations.StepIgnoresTheHazardSimulator := by
  intro s t m h
  obtain ⟨hcfg, hsim⟩ := step_keeps_cfg_sim h
  refine ⟨hcfg, hsim, ?_⟩
  have hstep : step (s.withSim m) = resultWithSim m (step s) := by
    by_cases hstop : s.stopped = true
    · rw [step_of_stopped hstop]
      exact step_of_stopped hstop
    · obtain ⟨hs, hf⟩ : s.stat = .run ∧ s.fatal = none := by simpa [stopped_iff] using hstop
      rw [step_running hf hs, step_running (s := s.withSim m) hf hs]
      have hfetch : (s.withSim m).fetchBytes = s.fetchBytes := rfl
      rw [hfetch]
      cases decode s.fetchBytes with
      | instr i rest => exact exec_withSim i s m
      | reject e => rfl
  exact hstep.trans (congrArg _ h)

end Sys2Proof.Machine
end

section
/-! SUPPORT. The four ALU instructions (41_alu.md R130 to R138), said once for the instruction with a given function, and
what their flags mean. -/

namespace Sys2Proof.Machine

variable {s t : State} {rA rB : Nybble} {a b : Word}

/-! The condition-code byte (10_state.md R29). -/

@[simp] theorem zfFlag_packCc (zf sf ovf : Bool) : zfFlag (packCc zf sf ovf) = zf := by revert zf sf ovf; decide

@[simp] theorem sfFlag_packCc (zf sf ovf : Bool) : sfFlag (packCc zf sf ovf) = sf := by revert zf sf ovf; decide

@[simp] theorem ofFlag_packCc (zf sf ovf : Bool) : ofFlag (packCc zf sf ovf) = ovf := by revert zf sf ovf; decide

theorem packCc_toNat (zf sf ovf : Bool) : (packCc zf sf ovf).toNat = 4 * zf.toNat + 2 * sf.toNat + ovf.toNat := by
  revert zf sf ovf; decide

section
variable (f : AluFn) (a b : Word)

theorem zfFlag_aluFlags : zfFlag (aluFlags f a b) = decide (aluResult f a b = 0) := zfFlag_packCc ..

theorem sfFlag_aluFlags : sfFlag (aluFlags f a b) = sign (aluResult f a b) := sfFlag_packCc ..

theorem ofFlag_aluFlags : ofFlag (aluFlags f a b) = aluOverflow f a b (aluResult f a b) := ofFlag_packCc ..

/-- Zero has no sign, so ZF and SF are never both set (41_alu.md R138). -/
theorem aluFlags_toNat_le : (aluFlags f a b).toNat ≤ 5 := by
  rw [aluFlags, packCc_toNat]
  have hovf := Bool.toNat_le (aluOverflow f a b (aluResult f a b))
  by_cases h0 : aluResult f a b = 0
  · have hsign : sign (0 : Word) = false := by decide
    simp only [h0, hsign, decide_true, Bool.toNat_true, Bool.toNat_false] at hovf ⊢
    omega
  · have hsf := Bool.toNat_le (sign (aluResult f a b))
    simp only [h0, decide_false, Bool.toNat_false]
    omega

/-- The upper five bits are 0 (41_alu.md R131 line 8). -/
theorem getLsbD_aluFlags_of_le {k : Nat} (hk : 3 ≤ k) : (aluFlags f a b).getLsbD k = false := by
  have hpow : 2 ^ 3 ≤ 2 ^ k := Nat.pow_le_pow_right (by decide) hk
  have hle := aluFlags_toNat_le f a b
  rw [← BitVec.testBit_toNat]
  exact Nat.testBit_lt_two_pow (by omega)

/-- The two logical functions clear OF. -/
theorem aluFlags_toNat_of_logical (hf : f = .and ∨ f = .xor) : (aluFlags f a b).toNat ∈ [0, 2, 4] := by
  have hovf : (aluOverflow f a b (aluResult f a b)).toNat = 0 := by rcases hf with rfl | rfl <;> rfl
  have hle := aluFlags_toNat_le f a b
  have heven : (aluFlags f a b).toNat % 2 = 0 := by rw [aluFlags, packCc_toNat, hovf]; omega
  simp only [List.mem_cons, List.not_mem_nil, or_false]
  omega

end

/-! The frame. -/

/-- An ALU instruction on two registers: the result and the flags are written, then the last line decides. -/
theorem aluFrame_of_regs (f : AluFn) (ha : s.readReg rA = some a) (hb : s.readReg rB = some b) :
    ∃ t, aluFrame f rA rB s = .next t ∧ t.readReg rB = some (aluResult f a b) ∧ regsSameBut [rB] s t ∧
      t.cc = aluFlags f a b ∧ memSame s t ∧
      ((s.pc + 2).toNat < s.cfg.memSize → t.pc = s.pc + 2 ∧ controlSame s t) ∧
      (s.cfg.memSize ≤ (s.pc + 2).toNat → t.pc = s.pc ∧ controlAfterAddressFault s t) := by
  obtain ⟨hB, -⟩ := readReg_eq_some.1 hb
  obtain ⟨s1, hs1⟩ : ∃ s1, s.writeReg rB (aluResult f a b) = some s1 := ⟨_, writeReg_eq_some.2 ⟨hB, rfl⟩⟩
  have hregs (i : Nybble) := readReg_of_writeReg (j := i) hs1
  obtain ⟨t, ht, htregs, htmem, htcc, -, hlt, hge⟩ :=
    writePc_last_leaves { s1 with cc := aluFlags f a b } (s.pc + 2)
  have hread (i : Nybble) : t.readReg i = s1.readReg i := readReg_congr htregs i
  refine ⟨t, ?_, ?_, fun i hi => ?_, htcc, ?_⟩
  · rw [aluFrame, ha, orAddressFault_some, hb, orAddressFault_some, hs1, orAddressFault_some]
    exact ht
  · rw [hread, hregs, if_pos rfl]
  · rw [hread, hregs, if_neg (by simpa using hi)]
  · obtain ⟨_, rfl⟩ := writeReg_eq_some.1 hs1
    exact ⟨fun x => congrArg (Memory.read · x) htmem, hlt, hge⟩

/-- A nybble that names no register faults with nothing written. -/
theorem aluFrame_of_noReg (f : AluFn) (h : 14 ≤ rA.toNat ∨ 14 ≤ rB.toNat) :
    aluFrame f rA rB s = .next { s with stat := .adr } := by
  rw [aluFrame]
  cases ha : s.readReg rA with
  | none => rfl
  | some a =>
    obtain ⟨hA, -⟩ := readReg_eq_some.1 ha
    rw [orAddressFault_some, readReg_eq_none.2 (h.resolve_left (by omega)), orAddressFault_none]

theorem runsFrom_alu (f : AluFn) : runsFrom (· = headerOf .alu (nybbleOfAluFn f)) 2 (fun rA rB _ => Instr.ofAlu f rA rB) :=
  runsFrom_regs fun b rest hb => by rw [hb, decode_alu]

/-- An ALU instruction does what its frame says, with its overflow rule written out. -/
theorem aluInstrDoes_ofAlu (f : AluFn) {ovf : Word → Word → Prop}
    (hovf : ∀ a b, aluOverflow f a b (aluResult f a b) = true ↔ ovf a b) :
    aluInstrDoes (headerOf .alu (nybbleOfAluFn f)) (Instr.ofAlu f) (aluResult f) ovf := by
  refine ⟨runsFrom_alu f, fun rA rB s => ⟨fun a b ha hb => ?_, fun h => ?_⟩⟩
  · obtain ⟨t, ht, hB, hregs, hcc, hmem, hlt, hge⟩ := aluFrame_of_regs f ha hb
    refine ⟨t, by rw [exec_ofAlu, ht], hB, hregs, ?_, ?_, ?_, ?_, hmem, hlt, hge⟩ <;> rw [hcc]
    · rw [zfFlag_aluFlags, decide_eq_true_iff]
    · rw [sfFlag_aluFlags]
    · rw [ofFlag_aluFlags, hovf]
    · exact (aluFlags_toNat_le f a b).trans_lt (by decide)
  · rw [exec_ofAlu, aluFrame_of_noReg f h]

/-- Settles O23: the frame with `add`. -/
theorem addWritesSumAndFlags : Obligations.AddWritesSumAndFlags :=
  aluInstrDoes_ofAlu .add fun a b => by simp [aluOverflow, aluResult]

/-- Settles O24: the frame with `sub`. -/
theorem subWritesDifferenceAndFlags : Obligations.SubWritesDifferenceAndFlags :=
  aluInstrDoes_ofAlu .sub fun a b => by simp [aluOverflow, aluResult]

/-- Settles O25: the frame with `and`. -/
theorem andWritesConjunctionAndFlags : Obligations.AndWritesConjunctionAndFlags :=
  aluInstrDoes_ofAlu .and fun _ _ => Bool.false_eq_true.to_iff

/-- Settles O26: the frame with `xor`. -/
theorem xorWritesExclusiveOrAndFlags : Obligations.XorWritesExclusiveOrAndFlags :=
  aluInstrDoes_ofAlu .xor fun _ _ => Bool.false_eq_true.to_iff

/-- The flags of an ALU instruction that read two registers. -/
theorem cc_of_exec_ofAlu {f : AluFn} (ha : s.readReg rA = some a) (hb : s.readReg rB = some b)
    (h : exec (Instr.ofAlu f rA rB) s = .next t) : t.cc = aluFlags f a b := by
  obtain ⟨t', ht', -, -, hcc, -⟩ := aluFrame_of_regs f ha hb
  rw [exec_ofAlu, ht'] at h
  rw [← Host.Outcome.next.inj h, hcc]

/-- Settles O15: the frame gives the flags whatever `CC` held, and only an ALU instruction's frame names `CC`. -/
theorem onlyAluWritesTheFlags : Obligations.OnlyAluWritesTheFlags := by
  refine ⟨fun f rA rB s hA hB => ?_, fun s t h hne => ?_⟩
  · have ha : s.readReg rA = some s.regs[rA.toNat] := readReg_eq_some.2 ⟨hA, rfl⟩
    have hb : s.readReg rB = some s.regs[rB.toNat] := readReg_eq_some.2 ⟨hB, rfl⟩
    obtain ⟨t, ht, hread, -, hcc, -⟩ := aluFrame_of_regs f ha hb
    refine ⟨t, _, by rw [exec_ofAlu, ht], hread, ?_, ?_, fun k hk => ?_, fun c => ?_⟩
    · rw [hcc, zfFlag_aluFlags, decide_eq_true_iff]
    · rw [hcc, sfFlag_aluFlags]
      rfl
    · rw [hcc]
      exact getLsbD_aluFlags_of_le f _ _ hk
    · obtain ⟨t', ht', -, -, hcc', -⟩ := aluFrame_of_regs (s := { s with cc := c }) f ha hb
      exact ⟨t', by rw [exec_ofAlu, ht'], by rw [hcc, hcc']⟩
  · rcases step_cases h with rfl | rfl | ⟨hpc, i, used, henc, hexec⟩
    · exact absurd rfl hne
    · exact absurd rfl hne
    · exact ⟨hpc, writesFlags_of_encodes henc ((exec_leaves hexec).cc.resolve_left hne)⟩

/-! Signed arithmetic. -/

/-- The sign bit is the sign of the signed value. -/
theorem sign_eq (v : Word) : sign v = decide (v.toInt < 0) := by
  rw [← BitVec.msb_eq_toInt, BitVec.msb_eq_getLsbD_last]
  rfl

theorem toInt_bounds (v : Word) : -2 ^ 63 ≤ v.toInt ∧ v.toInt < 2 ^ 63 := by
  have hlt := BitVec.toInt_lt (x := v)
  have hle := BitVec.le_toInt (x := v)
  omega

/-- Two's-complement addition is exact up to one multiple of 2^64. -/
theorem toInt_add_cases (a b : Word) : (a + b).toInt = a.toInt + b.toInt ∨
    (a + b).toInt = a.toInt + b.toInt - 2 ^ 64 ∨ (a + b).toInt = a.toInt + b.toInt + 2 ^ 64 := by
  have ha := toInt_bounds a
  have hb := toInt_bounds b
  rw [BitVec.toInt_add, Int.bmod_def]
  omega

theorem toInt_sub_cases (a b : Word) : (b - a).toInt = b.toInt - a.toInt ∨
    (b - a).toInt = b.toInt - a.toInt - 2 ^ 64 ∨ (b - a).toInt = b.toInt - a.toInt + 2 ^ 64 := by
  have ha := toInt_bounds a
  have hb := toInt_bounds b
  rw [BitVec.toInt_sub, Int.bmod_def]
  omega

theorem xor_eq_true_iff_not_iff (p q : Bool) : (p ^^ q) = true ↔ ¬ (p = true ↔ q = true) := by
  revert p q; decide

/-- The overflow rule of add is exact, and SF corrected by it is the sign of the exact sum. -/
theorem add_flags_signed (a b : Word) :
    (ofFlag (aluFlags .add a b) = true ↔ a.toInt + b.toInt < -2 ^ 63 ∨ 2 ^ 63 ≤ a.toInt + b.toInt) ∧
    ((sfFlag (aluFlags .add a b) ^^ ofFlag (aluFlags .add a b)) = true ↔ a.toInt + b.toInt < 0) := by
  have ha := toInt_bounds a
  have hb := toInt_bounds b
  have hr := toInt_bounds (a + b)
  have hsum := toInt_add_cases a b
  have hsf : sfFlag (aluFlags .add a b) = true ↔ (a + b).toInt < 0 := by
    rw [sfFlag_aluFlags, sign_eq, decide_eq_true_iff, aluResult]
  have hof : ofFlag (aluFlags .add a b) = true ↔ a.toInt + b.toInt < -2 ^ 63 ∨ 2 ^ 63 ≤ a.toInt + b.toInt := by
    simp only [ofFlag_aluFlags, aluOverflow, aluResult, sign_eq, Bool.and_eq_true, beq_iff_eq, bne_iff_ne, ne_eq,
      decide_eq_decide]
    omega
  refine ⟨hof, ?_⟩
  rw [xor_eq_true_iff_not_iff, hsf, hof]
  omega

/-- The overflow rule of sub is exact, and SF corrected by it is the sign of the exact difference. -/
theorem sub_flags_signed (a b : Word) :
    (ofFlag (aluFlags .sub a b) = true ↔ b.toInt - a.toInt < -2 ^ 63 ∨ 2 ^ 63 ≤ b.toInt - a.toInt) ∧
    ((sfFlag (aluFlags .sub a b) ^^ ofFlag (aluFlags .sub a b)) = true ↔ b.toInt - a.toInt < 0) := by
  have ha := toInt_bounds a
  have hb := toInt_bounds b
  have hr := toInt_bounds (b - a)
  have hdiff := toInt_sub_cases a b
  have hsf : sfFlag (aluFlags .sub a b) = true ↔ (b - a).toInt < 0 := by
    rw [sfFlag_aluFlags, sign_eq, decide_eq_true_iff, aluResult]
  have hof : ofFlag (aluFlags .sub a b) = true ↔ b.toInt - a.toInt < -2 ^ 63 ∨ 2 ^ 63 ≤ b.toInt - a.toInt := by
    simp only [ofFlag_aluFlags, aluOverflow, aluResult, sign_eq, Bool.and_eq_true, bne_iff_ne, ne_eq,
      decide_eq_decide]
    omega
  refine ⟨hof, ?_⟩
  rw [xor_eq_true_iff_not_iff, hsf, hof]
  omega

/-- Settles O27: the flags are those of the operands, and over the integers the two rules are exact. -/
theorem overflowFlagIsExact : Obligations.OverflowFlagIsExact := by
  intro rA rB s t a b ha hb
  refine ⟨fun h => ?_, fun h => ?_⟩
  · rw [cc_of_exec_ofAlu (f := .add) ha hb h]
    exact add_flags_signed a b
  · rw [cc_of_exec_ofAlu (f := .sub) ha hb h]
    exact sub_flags_signed a b

/-- Settles O28: SF xor OF is "less" and ZF is "equal"; the six conditions combine the two. -/
theorem conditionsAfterSubCompareSigned : Obligations.ConditionsAfterSubCompareSigned := by
  intro rA rB s t a b ha hb h
  have hcc : t.cc = aluFlags .sub a b := cc_of_exec_ofAlu (f := .sub) ha hb h
  have hlt : (sfFlag t.cc ^^ ofFlag t.cc) = true ↔ b.toInt < a.toInt := by
    rw [hcc, (sub_flags_signed a b).2]
    omega
  have heq : zfFlag t.cc = true ↔ b.toInt = a.toInt := by
    rw [hcc, zfFlag_aluFlags, decide_eq_true_iff, BitVec.toInt_inj]
    exact sub_eq_zero
  have hnot (p : Bool) : (!p) = true ↔ ¬ p = true := by simp
  simp only [condHolds, Bool.or_eq_true, Bool.and_eq_true, hnot, hlt, heq]
  refine ⟨?_, trivial, trivial, trivial, ?_, ?_⟩ <;> omega

/-! The reachable flag bytes (41_alu.md R138). -/

/-- Each of the six bytes is left by add on some two words. -/
theorem exists_add_flags {n : Nat} (hn : n ≤ 5) : ∃ a b : Word, (aluFlags .add a b).toNat = n := by
  interval_cases n
  · exact ⟨1, 1, by decide⟩
  · exact ⟨0x8000000000000000, 0x8000000000000001, by decide⟩
  · exact ⟨0xFFFFFFFFFFFFFFFF, 0, by decide⟩
  · exact ⟨0x7FFFFFFFFFFFFFFF, 1, by decide⟩
  · exact ⟨0, 0, by decide⟩
  · exact ⟨0x8000000000000000, 0x8000000000000000, by decide⟩

/-- Settles O29: the bound is that of the flags of any operands; for each byte two operands are put in the registers. -/
theorem aluFlagBytesAreTheReachableOnes : Obligations.AluFlagBytesAreTheReachableOnes := by
  refine ⟨fun f rA rB s hA hB => ?_, fun s rA rB n hA hB hne hn => ?_⟩
  · obtain ⟨t, ht, -, -, hcc, -⟩ := aluFrame_of_regs f (readReg_eq_some.2 ⟨hA, rfl⟩) (readReg_eq_some.2 ⟨hB, rfl⟩)
    refine ⟨t, by rw [exec_ofAlu, ht], hcc ▸ aluFlags_toNat_le f _ _, fun hf => ?_⟩
    rw [hcc]
    exact aluFlags_toNat_of_logical f _ _ hf
  · obtain ⟨a, b, hflags⟩ := exists_add_flags hn
    obtain ⟨sa, hsa⟩ : ∃ sa, s.writeReg rA a = some sa := ⟨_, writeReg_eq_some.2 ⟨hA, rfl⟩⟩
    obtain ⟨sab, hsab⟩ : ∃ sab, sa.writeReg rB b = some sab := ⟨_, writeReg_eq_some.2 ⟨hB, rfl⟩⟩
    have ha : sab.readReg rA = some a := by
      rw [readReg_of_writeReg hsab, if_neg hne, readReg_of_writeReg hsa, if_pos rfl]
    have hb : sab.readReg rB = some b := by rw [readReg_of_writeReg hsab, if_pos rfl]
    obtain ⟨t, ht, -, -, hcc, -⟩ := aluFrame_of_regs .add ha hb
    exact ⟨a, b, sa, sab, t, hsa, hsab, ht, by rw [hcc, hflags]⟩

end Sys2Proof.Machine
end

section
/-! SUPPORT. The moves (43_moves.md): the seven conditional ones said once for the move with a given condition, and irmov,
rmmov and mrmov, which end in the same last line. -/

namespace Sys2Proof.Machine

variable {s t : State} {rA rB : Nybble} {v base d : Word}

/-! The conditional moves (R180). -/

theorem moveFrame_of_le (c : Cond) (h : s.cfg.memSize ≤ (s.pc + 2).toNat) :
    moveFrame c rA rB s = .next { s with stat := .adr } := by
  rw [moveFrame, writePc_eq_none.2 h, orAddressFault_none]

theorem moveFrame_of_not {c : Cond} (h : (s.pc + 2).toNat < s.cfg.memSize) (hc : condHolds c s.cc = false) :
    moveFrame c rA rB s = .next { s with pc := s.pc + 2 } := by
  rw [moveFrame, writePc_eq_some.2 ⟨h, rfl⟩, orAddressFault_some, if_neg (by simp [hc])]

/-- A move whose condition holds copies after the program counter has advanced. -/
theorem moveFrame_of_holds {c : Cond} (h : (s.pc + 2).toNat < s.cfg.memSize) (hc : condHolds c s.cc = true) :
    moveFrame c rA rB s =
      orAddressFault (s.readReg rA) { s with pc := s.pc + 2 } fun v =>
      orAddressFault (State.writeReg { s with pc := s.pc + 2 } rB v) { s with pc := s.pc + 2 } fun s2 => .next s2 := by
  rw [moveFrame, writePc_eq_some.2 ⟨h, rfl⟩, orAddressFault_some, if_pos hc]
  rfl

theorem runsFrom_move (c : Cond) :
    runsFrom (· = headerOf .cmov (nybbleOfCond c)) 2 (fun rA rB _ => Instr.ofMove c rA rB) :=
  runsFrom_regs fun b rest hb => by rw [hb, decode_move]

/-- A conditional move does what its frame says, with its condition written out over the three flags. -/
theorem moveInstrDoes_ofMove (c : Cond) {taken : Bool → Bool → Bool → Bool}
    (htaken : ∀ cc, condHolds c cc = taken (zfFlag cc) (sfFlag cc) (ofFlag cc)) :
    moveInstrDoes (headerOf .cmov (nybbleOfCond c)) (Instr.ofMove c) taken := by
  refine ⟨runsFrom_move c, fun rA rB s => ?_⟩
  rw [exec_ofMove, ← htaken]
  refine ⟨moveFrame_of_le c, fun hpc => ⟨moveFrame_of_not hpc, fun hc => ?_⟩⟩
  rw [moveFrame_of_holds hpc hc]
  refine ⟨fun v hv hB => ?copied, fun hbad => ?fault⟩
  case copied =>
    obtain ⟨t, ht⟩ : ∃ t, State.writeReg { s with pc := s.pc + 2 } rB v = some t := ⟨_, writeReg_eq_some.2 ⟨hB, rfl⟩⟩
    have hread (i : Nybble) : t.readReg i = if i = rB then some v else s.readReg i :=
      readReg_of_writeReg (s := { s with pc := s.pc + 2 }) ht
    refine ⟨t, by rw [hv, orAddressFault_some, ht, orAddressFault_some], by rw [hread, if_pos rfl],
      fun i hi => by rw [hread, if_neg (by simpa using hi)], ?_⟩
    obtain ⟨_, rfl⟩ := writeReg_eq_some.1 ht
    exact ⟨rfl, rfl, fun _ => rfl, rfl, rfl, rfl, rfl⟩
  case fault =>
    cases hv : s.readReg rA with
    | none => rfl
    | some v =>
      obtain ⟨hA, -⟩ := readReg_eq_some.1 hv
      rw [orAddressFault_some, writeReg_eq_none.2 (hbad.resolve_left (by omega)), orAddressFault_none]

/-- Settles O30: each conditional move is the move with its condition, and each condition is the formula of its row in
40_condition_codes.md R112. -/
theorem conditionalMovesCopyWhenTheConditionHolds : Obligations.ConditionalMovesCopyWhenTheConditionHolds :=
  ⟨moveInstrDoes_ofMove .always fun _ => rfl,
   moveInstrDoes_ofMove .le fun _ => rfl,
   moveInstrDoes_ofMove .l fun _ => rfl,
   moveInstrDoes_ofMove .e fun _ => rfl,
   moveInstrDoes_ofMove .ne fun _ => rfl,
   moveInstrDoes_ofMove .ge fun _ => rfl,
   moveInstrDoes_ofMove .g fun _ => rfl⟩

/-! A register written, then the last line: the end of irmov and mrmov. -/

theorem writeReg_writePc_last {i : Nybble} (hi : i.toNat < 14) (v w : Word) :
    ∃ t, (orAddressFault (s.writeReg i v) s fun s1 => orAddressFault (s1.writePc w) s1 fun s2 => .next s2) = .next t ∧
      t.readReg i = some v ∧ regsSameBut [i] s t ∧ t.cc = s.cc ∧ memSame s t ∧
      (w.toNat < s.cfg.memSize → t.pc = w ∧ controlSame s t) ∧
      (s.cfg.memSize ≤ w.toNat → t.pc = s.pc ∧ controlAfterAddressFault s t) := by
  obtain ⟨s1, hs1⟩ : ∃ s1, s.writeReg i v = some s1 := ⟨_, writeReg_eq_some.2 ⟨hi, rfl⟩⟩
  obtain ⟨t, ht, hregs, hmem, hcc, -, hlt, hge⟩ := writePc_last_leaves s1 w
  have hread (j : Nybble) : t.readReg j = if j = i then some v else s.readReg j :=
    (readReg_congr hregs j).trans (readReg_of_writeReg hs1)
  refine ⟨t, by rw [hs1, orAddressFault_some, ht], by rw [hread, if_pos rfl],
    fun j hj => by rw [hread, if_neg (by simpa using hj)], ?_⟩
  obtain ⟨_, rfl⟩ := writeReg_eq_some.1 hs1
  exact ⟨hcc, fun x => congrArg (Memory.read · x) hmem, hlt, hge⟩

theorem writeReg_line_of_noReg {i : Nybble} (h : 14 ≤ i.toNat) (v : Word) (k : State → Result) :
    orAddressFault (s.writeReg i v) s k = .next { s with stat := .adr } := by
  rw [writeReg_eq_none.2 h, orAddressFault_none]

theorem readReg_line_of_noReg {i : Nybble} (h : 14 ≤ i.toNat) (k : Word → Result) :
    orAddressFault (s.readReg i) s k = .next { s with stat := .adr } := by
  rw [readReg_eq_none.2 h, orAddressFault_none]

/-! irmov (R189). -/

theorem runsFrom_irmov : runsFrom (hi · = 3) 10 (fun _ rB v => .irmov rB v) :=
  runsFrom_regsWord fun _ rest hb => decode_of_hi_irmov hb rest

/-- Settles O31: the register is the only line before the last one. -/
theorem irmovWritesTheImmediate : Obligations.IrmovWritesTheImmediate :=
  ⟨runsFrom_irmov, fun _ v s => ⟨fun hB => writeReg_writePc_last hB v (s.pc + 10), fun hB => writeReg_line_of_noReg hB v _⟩⟩

/-! rmmov (R190). -/

theorem runsFrom_rmmov : runsFrom (hi · = 4) 10 .rmmov :=
  runsFrom_regsWord fun _ rest hb => decode_of_hi_rmmov hb rest

/-- A word stored, then the last line. -/
theorem writeWord_writePc_last (hm : s.mem.wf) {a : Word} (ha : a.toNat + 8 ≤ s.cfg.memSize) (v w : Word) :
    ∃ t, (orAddressFault (s.writeWord a v) s fun s1 => orAddressFault (s1.writePc w) s1 fun s2 => .next s2) = .next t ∧
      t.readWord a = some v ∧ memSameOutsideWord a s t ∧ t.regs = s.regs ∧ t.cc = s.cc ∧
      (w.toNat < s.cfg.memSize → t.pc = w ∧ controlSame s t) ∧
      (s.cfg.memSize ≤ w.toNat → t.pc = s.pc ∧ controlAfterAddressFault s t) := by
  obtain ⟨t, ht, hregs, hmem, hcc, hcfg, hlt, hge⟩ :=
    writePc_last_leaves { s with mem := s.mem.writeWord a.toNat v } w
  refine ⟨t, by rw [writeWord_eq_some.2 ⟨ha, rfl⟩, orAddressFault_some, ht], ?_, fun x hx => ?_, hregs, hcc, hlt, hge⟩
  · rw [readWord_eq_some, hcfg, hmem]
    exact ⟨ha, word_writeWord hm _ _⟩
  · rw [hmem, read_writeWord_outside _ _ hx]

theorem exec_rmmov_of_regs (hbase : s.readReg rB = some base) (hv : s.readReg rA = some v) :
    exec (.rmmov rA rB d) s = orAddressFault (s.writeWord (effectiveAddress base d) v) s fun s1 =>
      orAddressFault (s1.writePc (s.pc + 10)) s1 fun s2 => .next s2 := by
  rw [exec, execRmmov, hbase, orAddressFault_some, hv, orAddressFault_some]

/-- Settles O32: both registers are read first; then the store and the last line decide. -/
theorem rmmovStoresTheWord : Obligations.RmmovStoresTheWord := by
  refine ⟨runsFrom_rmmov, fun rA rB d s hm => ⟨fun base v hbase hv => ⟨rfl, fun hle => ?_, fun hlt => ?_⟩, fun hbad => ?_⟩⟩
  · rw [exec_rmmov_of_regs hbase hv]
    exact writeWord_writePc_last hm hle v (s.pc + 10)
  · rw [exec_rmmov_of_regs hbase hv, writeWord_eq_none.2 hlt, orAddressFault_none]
  · rw [exec, execRmmov]
    cases hbase : s.readReg rB with
    | none => rfl
    | some base =>
      obtain ⟨hB, -⟩ := readReg_eq_some.1 hbase
      exact readReg_line_of_noReg (hbad.resolve_right (by omega)) _

/-! mrmov (R191). -/

theorem runsFrom_mrmov : runsFrom (hi · = 5) 10 .mrmov :=
  runsFrom_regsWord fun _ rest hb => decode_of_hi_mrmov hb rest

theorem exec_mrmov_of_read (hbase : s.readReg rB = some base) (hv : s.readWord (base + d) = some v) :
    exec (.mrmov rA rB d) s = orAddressFault (s.writeReg rA v) s fun s1 =>
      orAddressFault (s1.writePc (s.pc + 10)) s1 fun s2 => .next s2 := by
  rw [exec, execMrmov, hbase, orAddressFault_some, effectiveAddress, hv, orAddressFault_some]

theorem exec_mrmov_of_lt (hbase : s.readReg rB = some base) (h : s.cfg.memSize < (base + d).toNat + 8) :
    exec (.mrmov rA rB d) s = .next { s with stat := .adr } := by
  rw [exec, execMrmov, hbase, orAddressFault_some, effectiveAddress, readWord_eq_none.2 h, orAddressFault_none]

/-- Settles O33: the base and the word are read first; then the register and the last line decide. -/
theorem mrmovLoadsTheWord : Obligations.MrmovLoadsTheWord := by
  refine ⟨runsFrom_mrmov, fun rA rB d s => ⟨fun base v hbase hA hv => ?_, fun base hbase hlt => exec_mrmov_of_lt hbase hlt,
    fun hbad => ?_⟩⟩
  · rw [exec_mrmov_of_read hbase hv]
    exact writeReg_writePc_last hA v (s.pc + 10)
  · cases hbase : s.readReg rB with
    | none => exact readReg_line_of_noReg (readReg_eq_none.1 hbase) _
    | some base =>
      obtain ⟨hB, -⟩ := readReg_eq_some.1 hbase
      cases hv : s.readWord (base + d) with
      | none => exact exec_mrmov_of_lt hbase (readWord_eq_none.1 hv)
      | some v =>
        rw [exec_mrmov_of_read hbase hv]
        exact writeReg_line_of_noReg (hbad.resolve_right (by omega)) v _

end Sys2Proof.Machine
end

section
/-! SUPPORT. ret, push and pop (44_jumps_calls_stack.md R210 to R214). What push stores and what pop leaves of the stack
pointer as their own operand is a parameter (93_implementation_defined.md U4), read off in one lemma each. -/

namespace Sys2Proof.Machine

variable {s t : State} {rA : Nybble} {v : Word}

/-! ret (R210). -/

theorem runsFrom_ret : runsFrom (hi · = 9) 1 (fun _ _ _ => .ret) :=
  runsFrom_none fun _ rest hb => decode_of_hi_ret hb rest

theorem exec_ret_of_lt (hv : s.readWord s.sp = some v) (hpc : v.toNat < s.cfg.memSize) :
    exec .ret s = .next { s.setSp (popAdjust s.sp) with pc := v } := by
  rw [exec, execRet, hv, orAddressFault_some, writePc_eq_some.2 ⟨hpc, rfl⟩, orAddressFault_some]
  rfl

theorem exec_ret_of_le (hv : s.readWord s.sp = some v) (hpc : s.cfg.memSize ≤ v.toNat) :
    exec .ret s = .next { s with stat := .adr } := by
  rw [exec, execRet, hv, orAddressFault_some, writePc_eq_none.2 hpc, orAddressFault_none]

/-- Settles O36: the stack word is read, then the program counter is checked, and only then is anything written. -/
theorem retPopsTheProgramCounter : Obligations.RetPopsTheProgramCounter := by
  refine ⟨runsFrom_ret, fun s => ⟨fun v hv => ⟨fun hpc => ?_, exec_ret_of_le hv⟩, fun hlt => ?_⟩⟩
  · exact ⟨_, exec_ret_of_lt hv hpc, rfl, readReg_setSp, regsSameBut_of_regs_eq_setSp rfl, rfl, fun _ => rfl,
      rfl, rfl, rfl, rfl⟩
  · rw [exec, execRet, readWord_eq_none.2 hlt, orAddressFault_none]

/-! push (R212). -/

theorem runsFrom_push : runsFrom (hi · = 0xA) 2 (fun rA _ _ => .push rA) :=
  runsFrom_regs fun _ rest hb => decode_of_hi_push hb rest

/-- What push reads of the stack pointer (R214). -/
theorem pushOperand_four : (pushOperandState s (s.setSp s.pushAddress)).readReg 4 =
    some (match s.cfg.spOperand with | .adjusted => s.sp - 8 | .original => s.sp | .reread => s.sp - 8) := by
  unfold pushOperandState
  cases s.cfg.spOperand with
  | original => exact readReg_four
  | adjusted | reread => exact readReg_setSp

/-- The order of push's lines does not show in any other register. -/
theorem pushOperand_of_ne (h : rA ≠ 4) : (pushOperandState s (s.setSp s.pushAddress)).readReg rA = s.readReg rA := by
  unfold pushOperandState
  cases s.cfg.spOperand with
  | original => rfl
  | adjusted | reread => exact readReg_setSp.trans (if_neg h)

/-- A push that reads its operand and fits in memory. -/
theorem exec_push_of_le (hv : (pushOperandState s (s.setSp s.pushAddress)).readReg rA = some v)
    (h : s.pushAddress.toNat + 8 ≤ s.cfg.memSize) :
    exec (.push rA) s =
      orAddressFault ((s.pushed v).writePc (s.pc + 2)) (s.pushed v) fun s1 => .next s1 := by
  rw [exec, execPush, hv, orAddressFault_some, writeWord_setSp_of_le h, orAddressFault_some]

/-- A push that does not is left with the stack pointer decremented. -/
theorem exec_push_of_fault (h : 14 ≤ rA.toNat ∨ s.cfg.memSize < s.pushAddress.toNat + 8) :
    exec (.push rA) s = .next { s.setSp s.pushAddress with stat := .adr } := by
  rw [exec, execPush]
  cases hv : (pushOperandState s (s.setSp s.pushAddress)).readReg rA with
  | none => rfl
  | some v =>
    obtain ⟨hA, -⟩ := readReg_eq_some.1 hv
    rw [orAddressFault_some, writeWord_setSp_of_lt (h.resolve_left (by omega)), orAddressFault_none]

theorem exec_push_fault_leaves (h : 14 ≤ rA.toNat ∨ s.cfg.memSize < s.pushAddress.toNat + 8) :
    ∃ t, exec (.push rA) s = .next t ∧ t.readReg 4 = some s.pushAddress ∧ regsSameBut [4] s t ∧ memSame s t ∧
      t.cc = s.cc ∧ t.pc = s.pc ∧ controlAfterAddressFault s t :=
  ⟨_, exec_push_of_fault h, readReg_setSp, regsSameBut_of_regs_eq_setSp rfl, fun _ => rfl, rfl, rfl, rfl, rfl, rfl, rfl⟩

/-- Settles O38: the operand is what the parameter has push read; then it is the store and the last line. -/
theorem pushStoresTheRegister : Obligations.PushStoresTheRegister := by
  refine ⟨runsFrom_push, fun rA s hm hsp => ⟨rfl, fun v hv hle => ?_, exec_push_fault_leaves⟩⟩
  have hoperand : (pushOperandState s (s.setSp s.pushAddress)).readReg rA = some v := by
    by_cases h4 : rA = 4
    · rw [if_pos h4] at hv
      rw [h4, pushOperand_four, hsp h4, hv]
    · rw [if_neg h4] at hv
      rw [pushOperand_of_ne h4, hv]
  rw [exec_push_of_le hoperand hle]
  exact pushed_writePc_last hm hle v (s.pc + 2)

/-! pop (R213). -/

theorem runsFrom_pop : runsFrom (hi · = 0xB) 2 (fun rA _ _ => .pop rA) :=
  runsFrom_regs fun _ rest hb => decode_of_hi_pop hb rest

theorem setSp_setSp (v w : Word) : (s.setSp v).setSp w = s.setSp w := by
  simp [State.setSp]

/-- Another register's write and the stack pointer's commute. -/
theorem writeReg_setSp (hne : rA ≠ 4) (v w : Word) :
    (s.setSp w).writeReg rA v = (s.writeReg rA v).map (·.setSp w) := by
  have hidx : spReg.val ≠ rA.toNat := fun h => hne (BitVec.eq_of_toNat_eq h.symm)
  cases h : s.writeReg rA v with
  | none => exact writeReg_eq_none.2 ((writeReg_eq_none (s := s)).1 h)
  | some t =>
    obtain ⟨hA, rfl⟩ := writeReg_eq_some.1 h
    exact writeReg_eq_some.2 ⟨hA, by simp only [State.setSp, Vector.set_comm _ _ hidx]⟩

theorem sp_of_writeReg (hne : rA ≠ 4) (h : s.writeReg rA v = some t) : t.sp = s.sp := by
  have h4 := readReg_of_writeReg (j := 4) h
  rw [if_neg hne.symm, readReg_four, readReg_four] at h4
  exact Option.some.inj h4

/-- What pop leaves when its operand is the stack pointer (R214). -/
theorem popRegs_four (sp v : Word) : s.popRegs 4 sp v = some (s.setSp
    (match s.cfg.spOperand with | .adjusted => sp + 8 | .original => v | .reread => v + 8)) := by
  unfold State.popRegs
  cases s.cfg.spOperand <;>
    simp only [writeReg_four, Option.map_some, setSp_setSp, setSp_sp, popAdjust]

/-- The order of pop's lines does not show in any other operand. -/
theorem popRegs_of_ne (hne : rA ≠ 4) (v : Word) :
    s.popRegs rA s.sp v = (s.writeReg rA v).map (·.setSp (s.sp + 8)) := by
  unfold State.popRegs
  cases s.cfg.spOperand with
  | adjusted => rfl
  | original => exact writeReg_setSp hne v (s.sp + 8)
  | reread =>
    cases ht : s.writeReg rA v with
    | none => rfl
    | some t => simp only [Option.map_some, sp_of_writeReg hne ht, popAdjust]

/-- A pop that reads its word and names a register. -/
theorem exec_pop_of_popRegs {s1 : State} (hv : s.readWord s.sp = some v) (h1 : s.popRegs rA s.sp v = some s1) :
    exec (.pop rA) s = orAddressFault (s1.writePc (s.pc + 2)) s1 fun s2 => .next s2 := by
  rw [exec, execPop, hv, orAddressFault_some, h1, orAddressFault_some]

/-- A pop that does not leaves everything as it was. -/
theorem exec_pop_of_fault (h : 14 ≤ rA.toNat ∨ s.cfg.memSize < s.sp.toNat + 8) :
    exec (.pop rA) s = .next { s with stat := .adr } := by
  rw [exec, execPop]
  cases hv : s.readWord s.sp with
  | none => rfl
  | some v =>
    obtain ⟨hle, -⟩ := readWord_eq_some.1 hv
    rw [orAddressFault_some, popRegs_eq_none.2 (h.resolve_right (by omega)), orAddressFault_none]

/-- A pop leaves the registers its parameter says, and then the last line decides. -/
theorem exec_pop_leaves {s1 : State} (hv : s.readWord s.sp = some v) (h1 : s.popRegs rA s.sp v = some s1) :
    ∃ t, exec (.pop rA) s = .next t ∧ (∀ j, t.readReg j = s1.readReg j) ∧ memSame s t ∧ t.cc = s.cc ∧
      ((s.pc + 2).toNat < s.cfg.memSize → t.pc = s.pc + 2 ∧ controlSame s t) ∧
      (s.cfg.memSize ≤ (s.pc + 2).toNat → t.pc = s.pc ∧ controlAfterAddressFault s t) := by
  obtain ⟨t, ht, hregs, hmem, hcc, -, hlt, hge⟩ := writePc_last_leaves s1 (s.pc + 2)
  refine ⟨t, by rw [exec_pop_of_popRegs hv h1, ht], readReg_congr hregs, ?_⟩
  obtain ⟨_, rfl⟩ := popRegs_eq_some.1 h1
  exact ⟨fun x => congrArg (Memory.read · x) hmem, hcc, hlt, hge⟩

/-- `pop r4` on a stack word inside memory. -/
theorem exec_pop_four (hv : s.readWord s.sp = some v) :
    ∃ t, exec (.pop 4) s = .next t ∧
      t.readReg 4 = some (match s.cfg.spOperand with | .adjusted => s.sp + 8 | .original => v | .reread => v + 8) ∧
      regsSameBut [4] s t ∧ memSame s t ∧ t.cc = s.cc ∧
      ((s.pc + 2).toNat < s.cfg.memSize → t.pc = s.pc + 2 ∧ controlSame s t) ∧
      (s.cfg.memSize ≤ (s.pc + 2).toNat → t.pc = s.pc ∧ controlAfterAddressFault s t) := by
  obtain ⟨t, ht, hread, hrest⟩ := exec_pop_leaves hv (popRegs_four s.sp v)
  exact ⟨t, ht, (hread 4).trans readReg_setSp,
    fun j hj => (hread j).trans (readReg_setSp.trans (if_neg (by simpa using hj))), hrest⟩

/-- Settles O39: the parameter decides nothing but `pop r4`, which the hypothesis fixes. -/
theorem popLoadsTheRegister : Obligations.PopLoadsTheRegister := by
  refine ⟨runsFrom_pop, fun rA s hsp => ⟨fun v hA hv => ?_, exec_pop_of_fault⟩⟩
  by_cases h4 : rA = 4
  · subst h4
    obtain ⟨t, ht, hread, hregs, hmem, hcc, hlast⟩ := exec_pop_four hv
    rw [hsp rfl] at hread
    exact ⟨t, ht, fun hne => absurd rfl hne, hread, fun j hj => hregs j (by simpa using hj), hcc, hmem, hlast⟩
  · obtain ⟨s0, hs0⟩ : ∃ s0, s.writeReg rA v = some s0 := ⟨_, writeReg_eq_some.2 ⟨hA, rfl⟩⟩
    have h1 : s.popRegs rA s.sp v = some (s0.setSp (s.sp + 8)) := by rw [popRegs_of_ne h4, hs0]; rfl
    obtain ⟨t, ht, hread, hmem, hcc, hlast⟩ := exec_pop_leaves hv h1
    have hreg (j : Nybble) :
        t.readReg j = if j = 4 then some (s.sp + 8) else if j = rA then some v else s.readReg j := by
      rw [hread, readReg_setSp, readReg_of_writeReg hs0]
    refine ⟨t, ht, fun _ => by rw [hreg, if_neg h4, if_pos rfl], by rw [hreg, if_pos rfl], fun j hj => ?_, hcc, hmem, hlast⟩
    obtain ⟨hjA, hj4⟩ : j ≠ rA ∧ j ≠ 4 := by simpa using hj
    rw [hreg, if_neg hj4, if_neg hjA]

/-- Settles O40: what push stores and what pop leaves of the stack pointer is the parameter's; the rest is as for any
operand. -/
theorem pushPopOfTheStackPointer : Obligations.PushPopOfTheStackPointer := by
  have hsp {t : State} {w : Word} (h : t.readReg 4 = some w) : t.sp = w := Option.some.inj (readReg_four.symm.trans h)
  refine fun s hm => ⟨rfl, fun hle => ?_, fun hlt => ?_, fun v hv => ?_, fun hlt => exec_pop_of_fault (.inr hlt)⟩
  · obtain ⟨t, ht, h4, hrest⟩ := pushed_writePc_last hm hle
      (match s.cfg.spOperand with | .adjusted => s.sp - 8 | .original => s.sp | .reread => s.sp - 8) (s.pc + 2)
    exact ⟨t, by rw [exec_push_of_le pushOperand_four hle, ht], hsp h4, hrest⟩
  · obtain ⟨t, ht, h4, hrest⟩ := exec_push_fault_leaves (rA := 4) (.inr hlt)
    exact ⟨t, ht, hsp h4, hrest⟩
  · obtain ⟨t, ht, h4, hrest⟩ := exec_pop_four hv
    exact ⟨t, ht, hsp h4, hrest⟩

end Sys2Proof.Machine
end

section
/-! SUPPORT. What Classify reads and returns (70_reset_and_hazards.md R273 to R278), the data hazard (R276), and what a tick
leaves alone (R287). -/

namespace Sys2Proof.Machine

variable {s : State} {b0 rb : Byte} {op : BaseOp}

/-! Classify. -/

theorem classify_of_noHeader (h : s.readByte s.pc = none) : s.classify = none := by
  rw [State.classify, h]

theorem classify_of_illegal (h : s.readByte s.pc = some b0) (hop : baseOpOfNybble (hi b0) = none) :
    s.classify = some { srcs := [], dst := .none, ctl := 0 } := by
  simp only [State.classify, h, hop]

theorem classify_of_peek (h : s.readByte s.pc = some b0) (hop : baseOpOfNybble (hi b0) = some op)
    (hpeek : peeksRegisterByte op = true) : s.classify =
      (s.readByte (s.pc + 1)).map fun rb => classifyOp s.cfg op (lo b0) (hi rb) (lo rb) s.cc := by
  simp only [State.classify, h, hop, hpeek, if_true]
  cases s.readByte (s.pc + 1) <;> rfl

theorem classify_of_noPeek (h : s.readByte s.pc = some b0) (hop : baseOpOfNybble (hi b0) = some op)
    (hpeek : peeksRegisterByte op = false) :
    s.classify = some (classifyOp s.cfg op (lo b0) rNone rNone s.cc) := by
  simp [State.classify, h, hop, hpeek]

/-- The base opcodes with a register byte, by their numbers (R273). -/
theorem peeksRegisterByte_iff (op : BaseOp) :
    peeksRegisterByte op = true ↔ (nybbleOfBaseOp op).toNat ∈ [0x2, 0x3, 0x4, 0x5, 0x6, 0xA, 0xB] := by
  cases op <;> decide

/-- A peek fails exactly outside memory (R274). -/
theorem classify_eq_none_iff : s.classify = none ↔ s.cfg.memSize ≤ s.pc.toNat ∨
    ((hi (s.mem.read s.pc.toNat)).toNat ∈ [0x2, 0x3, 0x4, 0x5, 0x6, 0xA, 0xB] ∧ s.cfg.memSize ≤ (s.pc + 1).toNat) := by
  cases h : s.readByte s.pc with
  | none => exact iff_of_true (classify_of_noHeader h) (.inl (readByte_eq_none.1 h))
  | some b0 =>
    obtain ⟨hpc, rfl⟩ := readByte_eq_some.1 h
    rw [or_iff_right (Nat.not_le.2 hpc)]
    cases hop : baseOpOfNybble (hi (s.mem.read s.pc.toNat)) with
    | none =>
      have hnot : ∀ n : Nybble, 0xC ≤ n.toNat → n.toNat ∉ [0x2, 0x3, 0x4, 0x5, 0x6, 0xA, 0xB] := by decide
      rw [classify_of_illegal h hop]
      exact iff_of_false nofun fun hc => hnot _ (baseOpOfNybble_eq_none.1 hop) hc.1
    | some op =>
      rw [baseOpOfNybble_eq_some.1 hop, ← peeksRegisterByte_iff]
      cases hpeek : peeksRegisterByte op with
      | true => simp [classify_of_peek h hop hpeek, readByte_eq_none]
      | false => simp [classify_of_noPeek h hop hpeek]

theorem filter_keep (l : List Nybble) : l.filter (fun n => n != rNone) = l.filter (fun n => decide (n ≠ 0xE)) := by
  congr 1
  funext n
  simp [rNone, bne, Bool.beq_eq_decide_eq]

/-- A row without a register byte does not use the nybbles. -/
theorem classifyOp_of_noPeek (hpeek : peeksRegisterByte op = false) (cfg : Config) (fn rA rB : Nybble) (cc : Byte) :
    classifyOp cfg op fn rA rB cc = classifyOp cfg op fn rNone rNone cc := by
  cases op with
  | halt | nop | jump | call | ret => rfl
  | _ => cases hpeek

/-- The row of a base opcode, the register byte read where it has one. -/
theorem classify_of_op (h : s.readByte s.pc = some b0) (hop : baseOpOfNybble (hi b0) = some op)
    (hrb : peeksRegisterByte op = true → s.readByte (s.pc + 1) = some rb) :
    s.classify = some (classifyOp s.cfg op (lo b0) (hi rb) (lo rb) s.cc) := by
  cases hpeek : peeksRegisterByte op with
  | true => rw [classify_of_peek h hop hpeek, hrb hpeek, Option.map_some]
  | false => rw [classify_of_noPeek h hop hpeek, classifyOp_of_noPeek hpeek _ _ (hi rb)]

/-- The jump's control bubbles: under `taken_only` a legal selector other than 0 whose condition holds (R277). -/
theorem jumpBubbles_eq (cfg : Config) (fn : Nybble) (cc : Byte) : jumpBubbles cfg fn cc =
    match cfg.jxxPolicy with
    | .nontrivialSelector => if fn = 0 then 0 else 2
    | .takenOnly =>
      if fn ≠ 0 ∧ fn.toNat ≤ 6 ∧ ((condOfNybble fn).map (fun c => condHolds c cc)).getD false = true then 2 else 0 := by
  unfold jumpBubbles
  cases cfg.jxxPolicy with
  | nontrivialSelector => rfl
  | takenOnly =>
    cases hc : condOfNybble fn with
    | none => simp
    | some c =>
      obtain rfl := condOfNybble_eq_some.1 hc
      cases c <;> simp [nybbleOfCond]

/-- Settles O49: each base opcode's row; a header with none has the row of no sources and no destination. -/
theorem classifyFollowsTheTable : Obligations.ClassifyFollowsTheTable := by
  intro s b0 rb h hrb keep rA rB tracked taken jumpCtl
  cases hop : baseOpOfNybble (hi b0) with
  | none =>
    rw [classify_of_illegal h hop]
    have hge := baseOpOfNybble_eq_none.1 hop
    generalize (hi b0).toNat = n at hge
    match n, hge with
    | n + 12, _ => rfl
  | some op =>
    have hhi := baseOpOfNybble_eq_some.1 hop
    rw [classify_of_op h hop fun hpeek => hrb (hhi ▸ (peeksRegisterByte_iff op).1 hpeek), hhi, classifyOp]
    simp only [filter_keep]
    cases op with
    | jump => exact congrArg (fun n => some (⟨[], .none, n⟩ : Classified)) (jumpBubbles_eq ..)
    | call | ret =>
      cases hsp : s.cfg.callRetSp <;> simp only [hazardRegs, tracked, hsp] <;> rfl
    | _ => rfl

/-! The data hazard (R276). -/

theorem collides_iff (srcs : List Nybble) (r : Record) :
    collides srcs r = true ↔ ∃ n ∈ srcs, n ≠ 0xE ∧ (n = r.d1 ∨ n = r.d0) := by
  simp [collides, rNone]

theorem dataHazard_of_w0 {srcs : List Nybble} {w : Window} (h : collides srcs w.w0 = true) : dataHazard srcs w = 3 :=
  if_pos h

/-- Settles O47: the three indexes of the window, newest first. -/
theorem dataHazardCountsFromTheNewestMatch : Obligations.DataHazardCountsFromTheNewestMatch := by
  refine ⟨collides_iff, fun srcs w i r hr hc hnewer => ?_, fun srcs w h0 h1 h2 => by simp [dataHazard, h0, h1, h2]⟩
  match i, hr with
  | 0, hr =>
    obtain rfl := Option.some.inj hr
    exact dataHazard_of_w0 hc
  | 1, hr =>
    obtain rfl := Option.some.inj hr
    have h0 := hnewer 0 w.w0 (by decide) rfl
    simp [dataHazard, h0, hc]
  | 2, hr =>
    obtain rfl := Option.some.inj hr
    have h0 := hnewer 0 w.w0 (by decide) rfl
    have h1 := hnewer 1 w.w1 (by decide) rfl
    simp [dataHazard, h0, h1, hc]

/-! What a tick touches. -/

theorem tick_of_failing_peek (hi : s.issuing) (hn : s.classify = none) : tick s = (.stall, { s with stat := .adr }) := by
  rcases tick_cases_of_issuing hi with ⟨-, ht⟩ | ⟨c, hc, -⟩ | ⟨c, hc, -⟩
  · exact ht
  · cases hn.symm.trans hc
  · cases hn.symm.trans hc

/-- A tick leaves another simulator state, or `STAT` at `ADR` after a failing peek. -/
theorem tick_changes (s : State) :
    (∃ r m, tick s = (r, { s with sim := m })) ∨
    (s.issuing ∧ s.classify = none ∧ tick s = (.stall, { s with stat := .adr })) := by
  rcases tick_cases s with ⟨-, ht⟩ | ⟨-, -, ht⟩ | ⟨-, -, -, ht⟩ | ⟨hf, hc, hs, hn, ht⟩ | ⟨c, -, -, -, -, -, ht⟩ |
    ⟨c, -, -, -, -, -, ht⟩
  · exact .inl ⟨_, s.sim, ht⟩
  · exact .inl ⟨_, _, ht⟩
  · exact .inl ⟨_, _, ht⟩
  · exact .inr ⟨⟨hf, hc, hs⟩, hn, ht⟩
  · exact .inl ⟨_, _, ht⟩
  · exact .inl ⟨_, _, ht⟩

/-- Settles O50: both kinds of change leave the rest of the state. -/
theorem tickTouchesOnlyItsOwnState : Obligations.TickTouchesOnlyItsOwnState := by
  intro s
  rcases tick_changes s with ⟨r, m, ht⟩ | hfail
  · have hstat : (tick s).2.stat = s.stat := by rw [ht]
    refine ⟨?_, ?_, ?_, ?_, ?_, ?_, .inl hstat, tick_of_failing_peek, classify_eq_none_iff⟩ <;> rw [ht]
  · obtain ⟨-, -, ht⟩ := id hfail
    refine ⟨?_, ?_, ?_, ?_, ?_, ?_, .inr hfail, tick_of_failing_peek, classify_eq_none_iff⟩ <;> rw [ht]

end Sys2Proof.Machine
end

section
/-! SUPPORT. Several ticks and cycles in a row (70_reset_and_hazards.md R280 to R284, R291, R292): the countdown drained to
its end, the whole wait of one instruction, and a run under the lock-step driver. -/

namespace Sys2Proof.Machine

variable {s t u : State} {c : Classified}

/-! Ticks and cycles in a row. -/

theorem ticks_length (n : Nat) (s : State) : (ticks n s).1.length = n := by
  induction n generalizing s with
  | zero => rfl
  | succ n ih => simp [ticks, ih]

theorem ticks_succ_of {r : TickResult} (h : tick s = (r, t)) (n : Nat) :
    ticks (n + 1) s = (r :: (ticks n t).1, (ticks n t).2) := by
  simp only [ticks, h]

theorem ticks_add (m n : Nat) (s : State) :
    ticks (m + n) s = ((ticks m s).1 ++ (ticks n (ticks m s).2).1, (ticks n (ticks m s).2).2) := by
  induction m generalizing s with
  | zero => simp [ticks]
  | succ m ih => rw [Nat.succ_add]; simp only [ticks, ih, List.cons_append]

/-- Two states that tick alike tick alike from then on. -/
theorem ticks_succ_congr (h : tick s = tick u) (n : Nat) : ticks (n + 1) s = ticks (n + 1) u := by
  simp only [ticks, h]

theorem cycles_add (m n : Nat) (s : State) : cycles (m + n) s = cycles n (cycles m s) := by
  induction m generalizing s with
  | zero => simp [cycles]
  | succ m ih => rw [Nat.succ_add]; exact ih _

theorem cycle_of_stall (h : tick s = (.stall, t)) : cycle s = (.stall, t) := by rw [cycle, h]

theorem cycle_of_proceed (h : tick s = (.proceed, t)) : cycle s = (.proceed, stepState t) := by rw [cycle, h]

/-- While every tick stalls the engine stands still. -/
theorem cycles_of_stalls {n : Nat} (h : (ticks n s).1 = List.replicate n .stall) : cycles n s = (ticks n s).2 := by
  induction n generalizing s with
  | zero => rfl
  | succ n ih =>
    obtain ⟨hstall, hrest⟩ := List.cons.inj h
    rw [cycles, cycle_of_stall (Prod.ext hstall rfl), ih hrest, ticks]

/-! The countdown drained to its end. -/

theorem with_countdown_zero (hc : s.sim.countdown = 0) : { s with sim := { s.sim with countdown := 0 } } = s := by
  rw [← hc]

/-- Filling: a sentinel a tick (R272). -/
theorem ticks_filling {n : Nat} (hf : s.fatal = none) (hc : s.sim.countdown = n) (hs : s.sim.stalling = false) :
    ticks n s = (List.replicate n .stall,
      { s with sim := { s.sim with countdown := 0, win := (Window.shiftIn · .none)^[n] s.sim.win } }) := by
  induction n generalizing s with
  | zero => exact congrArg (Prod.mk []) (with_countdown_zero hc).symm
  | succ n ih =>
    have ht := tick_of_countdown hf (by omega : 0 < s.sim.countdown)
    have hrest := ih (s := { s with sim := s.sim.drain }) hf (by simp [hc]) hs
    rw [ticks_succ_of ht, hrest, drain_of_filling hs]
    rfl

/-- Stalling: sentinels, and the record of the stalled instruction last (R280, R281). -/
theorem ticks_stalling {n : Nat} (hf : s.fatal = none) (hc : s.sim.countdown = n + 1) (hs : s.sim.stalling = true) :
    ticks (n + 1) s = (List.replicate (n + 1) .stall,
      { s with sim := { s.sim with countdown := 0, win := issuedWindow s.sim.win s.sim.pending (n + 1) } }) := by
  induction n generalizing s with
  | zero =>
    have ht := tick_of_countdown hf (by omega : 0 < s.sim.countdown)
    rw [drain_of_last hc hs] at ht
    rw [ticks, ht]
    rfl
  | succ n ih =>
    have ht := tick_of_countdown hf (by omega : 0 < s.sim.countdown)
    have hrest := ih (s := { s with sim := s.sim.drain }) hf (by simp [hc]) hs
    rw [ticks_succ_of ht, hrest, drain_of_more hc]
    rfl

/-! The hazard pass. -/

theorem tick_of_no_bubbles (hi : s.issuing) (hcl : s.classify = some c) (hb : bubbles c s.sim.win = 0) :
    tick s = (.proceed, { s with sim := { s.sim with win := s.sim.win.shiftIn c.dst } }) := by
  simpa [hcl, hb] using tick_cases_of_issuing hi

/-- The simulator as the pass on a classified instruction sets it, before its first bubble (R279). -/
def StallSim.stallFor (m : StallSim) (c : Classified) : StallSim :=
  { m with countdown := bubbles c m.win, stalling := true, pending := c.dst }

theorem tick_of_bubbles (hi : s.issuing) (hcl : s.classify = some c) (hb : 0 < bubbles c s.sim.win) :
    tick s = (.stall, { s with sim := (s.sim.stallFor c).drain }) := by
  simpa [hcl, hb, hb.ne', StallSim.stallFor] using tick_cases_of_issuing hi

/-! Startup (R282). -/

theorem ticks_startup (hf : s.fatal = none) (hc : s.sim.countdown = 4) (hs : s.sim.stalling = false) :
    ticks 4 s = (List.replicate 4 .stall,
      { s with sim := { s.sim with countdown := 0, win := ⟨.none, .none, .none⟩ } }) :=
  ticks_filling hf hc hs

/-- A nop at `PC` waits for nothing. -/
theorem classify_of_nop (hpc : s.pc.toNat < s.cfg.memSize) (hnop : hi (s.mem.read s.pc.toNat) = 1) :
    ∃ c, s.classify = some c ∧ ∀ w, bubbles c w = 0 :=
  ⟨_, classify_of_noPeek (op := .nop) (readByte_eq_some.2 ⟨hpc, rfl⟩)
    (baseOpOfNybble_eq_some.2 hnop) rfl, fun _ => rfl⟩

/-- Settles O43: the countdown of 4 drained; the state after it is issuing, and a nop there has no bubbles. -/
theorem startupStallsFourTicks : Obligations.StartupStallsFourTicks := by
  intro s hf hc hs
  have h4 := ticks_startup hf hc hs
  refine ⟨by rw [h4]; rfl, by rw [h4], fun hpc hnop => ?_⟩
  have hissuing : (ticks 4 s).2.issuing := by
    rw [h4]
    exact ⟨hf, rfl, hs⟩
  obtain ⟨c, hcl, hb⟩ : ∃ c, (ticks 4 s).2.classify = some c ∧ ∀ w, bubbles c w = 0 := by
    rw [h4]
    exact classify_of_nop hpc hnop
  have hlast : (ticks 1 (ticks 4 s).2).1 = [.proceed] := by
    rw [ticks_succ_of (tick_of_no_bubbles hissuing hcl (hb _))]
    rfl
  rw [ticks_add 4 1, hlast, h4]
  rfl

/-! The wait of one instruction (R284). -/

/-- The pass that finds bubbles is the first tick of the countdown it sets. -/
theorem tick_of_bubbles_eq (hi : s.issuing) (hcl : s.classify = some c) (hb : 0 < bubbles c s.sim.win) :
    tick s = tick { s with sim := s.sim.stallFor c } := by
  obtain ⟨hf, -⟩ := id hi
  rw [tick_of_bubbles hi hcl hb, tick_of_countdown (s := { s with sim := s.sim.stallFor c }) hf hb]

/-- Settles O46: without bubbles the pass itself issues; with them the countdown it sets is drained, and the tick after that
proceeds. -/
theorem stallLastsItsBubbles : Obligations.StallLastsItsBubbles := by
  intro s c hi hcl
  obtain ⟨hf, hc, hs⟩ := id hi
  cases hb : bubbles c s.sim.win with
  | zero =>
    rw [ticks_succ_of (tick_of_no_bubbles hi hcl hb)]
    exact ⟨rfl, by simp [ticks, issuedSim, issuedWindow, hc, hs]⟩
  | succ n =>
    have hdrain := ticks_stalling (n := n) (s := { s with sim := s.sim.stallFor c }) hf hb rfl
    rw [← ticks_succ_congr (tick_of_bubbles_eq hi hcl (by omega))] at hdrain
    have hover := tick_of_stall_over (s := (ticks (n + 1) s).2) (by rw [hdrain]; exact hf) (by rw [hdrain])
      (by rw [hdrain]; rfl)
    rw [ticks_add (n + 1) 1, ticks_succ_of hover, hdrain]
    exact ⟨rfl, rfl⟩

/-! An ALU instruction and its reader (R284). -/

/-- The newest record of the window after an issue is the issued instruction's. -/
theorem issuedWindow_w0 (w : Window) (r : Record) (b : Nat) : (issuedWindow w r b).w0 = r := by
  induction b generalizing w with
  | zero => rfl
  | succ b ih =>
    cases b with
    | zero => rfl
    | succ b => exact ih _

/-- The results of fewer ticks are the first of the results of more. -/
theorem ticks_results_extend {m n : Nat} (h : m ≤ n) (s : State) : (ticks m s).1 <+: (ticks n s).1 := by
  obtain ⟨k, rfl⟩ := Nat.exists_eq_add_of_le h
  rw [ticks_add]
  exact ⟨_, rfl⟩

/-- Stalls up to the first proceed, counted the same twice. -/
theorem eq_of_stalls_extend {k l : Nat}
    (h : List.replicate k TickResult.stall ++ [.proceed] <+: List.replicate l .stall ++ [.proceed]) : k = l := by
  have hlen := h.length_le
  obtain ⟨rest, hrest⟩ := h
  have hk := congrArg (·[k]?) hrest
  by_contra hne
  have hlt : k < l := by
    simp only [List.length_append, List.length_replicate, List.length_singleton] at hlen
    omega
  simp [List.getElem?_append, hlt] at hk

/-- Ticks that stall and then proceed from an issuing state are the whole wait of the instruction at `PC`. -/
theorem ticks_until_proceed {n : Nat} (hi : s.issuing) (hcl : s.classify = some c)
    (h : (ticks n s).1 = List.replicate (n - 1) .stall ++ [.proceed]) :
    (ticks n s).2.sim = issuedSim s.sim c.dst (bubbles c s.sim.win) := by
  obtain ⟨hresults, hstate⟩ := stallLastsItsBubbles s c hi hcl
  have hlen := congrArg List.length h
  simp only [ticks_length, List.length_append, List.length_replicate, List.length_singleton] at hlen
  have hn : n - 1 = bubbles c s.sim.win := by
    rcases Nat.le_total n (bubbles c s.sim.win + 1) with hle | hle
    · exact eq_of_stalls_extend (h ▸ hresults ▸ ticks_results_extend hle s)
    · exact (eq_of_stalls_extend (h ▸ hresults ▸ ticks_results_extend hle s)).symm
  rw [hlen, hn, hstate]

/-- Settles O48: the ALU instruction's record is the newest of the window, so its reader has 3 data bubbles. -/
theorem readerAfterAluWaitsThree : Obligations.ReaderAfterAluWaitsThree := by
  intro s u b0 rb c hi h0 hop hrb hreg huf ⟨n, hsim, hn⟩ hcl hsrc hctl
  have halu := classify_of_peek h0 (op := .alu) (baseOpOfNybble_eq_some.2 hop) rfl
  rw [hrb, Option.map_some] at halu
  rw [ticks_until_proceed hi halu hn] at hsim
  have hui : u.issuing := ⟨huf, by rw [hsim]; rfl, by rw [hsim]; rfl⟩
  have hnewest : u.sim.win.w0 = ⟨rNone, lo rb⟩ := by rw [hsim]; exact issuedWindow_w0 ..
  have hcollides : collides c.srcs u.sim.win.w0 = true := by
    have hne : lo rb ≠ 0xE := fun h => absurd hreg (by rw [h]; decide)
    rw [hnewest, collides_iff]
    exact ⟨lo rb, hsrc, hne, .inr rfl⟩
  have hb : bubbles c u.sim.win = 3 := by rw [bubbles, hctl, dataHazard_of_w0 hcollides]
  have hwait := (stallLastsItsBubbles u c hui hcl).1
  rw [hb] at hwait
  exact hwait

/-! The fatal latch (R34, R286). -/

/-- Settles O51: neither operation does anything once the latch is set, hence no number of them. -/
theorem fatalStopsEngineAndSimulator : Obligations.FatalStopsEngineAndSimulator := by
  intro s hf
  have htick : tick s = (.stall, s) := if_pos hf
  refine ⟨step_of_stopped (stopped_iff.2 (.inr hf)), htick, fun n => ?_, fun n => ?_⟩
  · induction n with
    | zero => rfl
    | succ n ih => rw [cycles, cycle_of_stall htick, ih]
  · induction n with
    | zero => rfl
    | succ n ih => rw [ticks_succ_of htick, ih]; rfl

/-! The lock-step driver (R291, R292). -/

theorem lockStepInstr_eq_some {b : Nat} (h : lockStepInstr s = some (b, t)) :
    ∃ c, s.fatal = none ∧ s.classify = some c ∧ b = bubbles c s.sim.win ∧
      t = stepState { s with sim := issuedSim s.sim c.dst b } := by
  unfold lockStepInstr at h
  split at h
  · rename_i c hf hcl
    obtain ⟨rfl, rfl⟩ := Prod.mk.inj (Option.some.inj h)
    exact ⟨c, hf, hcl, rfl, rfl⟩
  · cases h

theorem lockStepInstrs_succ {n b : Nat} (h : lockStepInstrs (n + 1) s = some (b, u)) :
    ∃ b1 b2 t, lockStepInstr s = some (b1, t) ∧ lockStepInstrs n t = some (b2, u) ∧ b = b1 + b2 := by
  rw [lockStepInstrs] at h
  split at h
  · cases h
  · rename_i b1 t h1
    split at h
    · cases h
    · rename_i b2 u' h2
      obtain ⟨rfl, rfl⟩ := Prod.mk.inj (Option.some.inj h)
      exact ⟨b1, b2, t, h1, h2, rfl⟩

theorem stepState_sim (s : State) : (stepState s).sim = s.sim := by
  obtain ⟨t, ht⟩ := stepAlwaysAnswersNext s
  rw [stepState_of_next ht]
  exact (step_keeps_cfg_sim ht).2

/-- One instruction under the lock-step driver takes its bubbles and one cycle more. -/
theorem cycles_of_wait (hi : s.issuing) (hcl : s.classify = some c) :
    cycles (bubbles c s.sim.win + 1) s =
      stepState { s with sim := issuedSim s.sim c.dst (bubbles c s.sim.win) } := by
  obtain ⟨hresults, hstate⟩ := stallLastsItsBubbles s c hi hcl
  generalize bubbles c s.sim.win = b at hresults hstate ⊢
  rw [ticks_add] at hresults hstate
  obtain ⟨hstalls, hproceed⟩ := List.append_inj hresults (by simp [ticks_length])
  rw [cycles_add, cycles_of_stalls hstalls, ← hstate]
  exact congrArg Prod.snd (cycle_of_proceed (Prod.ext (List.cons.inj hproceed).1 rfl))

theorem cycles_of_lockStepInstrs {n b : Nat} (hc : s.sim.countdown = 0) (hs : s.sim.stalling = false)
    (h : lockStepInstrs n s = some (b, u)) : cycles (n + b) s = u := by
  induction n generalizing s b with
  | zero =>
    obtain ⟨rfl, rfl⟩ := Prod.mk.inj (Option.some.inj h)
    rfl
  | succ n ih =>
    obtain ⟨b1, b2, t, h1, h2, rfl⟩ := lockStepInstrs_succ h
    obtain ⟨c, hf, hcl, rfl, rfl⟩ := lockStepInstr_eq_some h1
    rw [show n + 1 + (bubbles c s.sim.win + b2) = bubbles c s.sim.win + 1 + (n + b2) by omega, cycles_add,
      cycles_of_wait ⟨hf, hc, hs⟩ hcl]
    exact ih (by rw [stepState_sim]; rfl) (by rw [stepState_sim]; rfl) h2

/-- Settles O52: the startup's four stalls, and then each instruction's wait and its own cycle. -/
theorem lockStepRunTakesFourPlusInstructionsPlusBubbles :
    Obligations.LockStepRunTakesFourPlusInstructionsPlusBubbles := by
  intro n b s t hf hc hs h
  have h4 := ticks_startup hf hc hs
  have hstart : cycles 4 s = (ticks 4 s).2 := cycles_of_stalls (by rw [h4])
  rw [Nat.add_assoc, cycles_add, hstart]
  exact cycles_of_lockStepInstrs (by rw [h4]) (by rw [h4]; exact hs) h

end Sys2Proof.Machine
end

section
/-! SUPPORT. The step against the spec's pseudocode (30_encoding.md R98). One lemma for each format says that fetching the
whole instruction first and fetching each byte at its line end alike; what is left of each instruction is the same lines. -/

namespace Sys2Proof.Machine

variable {s : State}

/-- The same line, failing or not, in the model and in the pseudocode. -/
theorem orAddressFault_eq_orStop {α : Type} {o : Option α} {k : α → Result} {k' : α → State}
    (h : ∀ a, k a = .next (k' a)) : orAddressFault o s k = .next (orStop o s k') := by
  cases o with
  | none => rfl
  | some a => exact h a

@[simp] theorem orStop_some {α : Type} (a : α) (s : State) (k : α → State) : orStop (some a) s k = k a := rfl
@[simp] theorem orStop_none {α : Type} (s : State) (k : α → State) : orStop none s k = { s with stat := .adr } := rfl

/-! The lazy fetch, format by format. -/

/-- A running engine with its header inside memory, addresses not wrapping there (00_scope.md R8). -/
structure Running (s : State) : Prop where
  fatal : s.fatal = none
  stat : s.stat = .run
  pc : s.pc.toNat < s.cfg.memSize
  size : s.cfg.memSize ≤ 2 ^ 63

theorem Running.pc_add_toNat (hr : Running s) {n : Nat} (hn : n ≤ 10) : (s.pc + BitVec.ofNat 64 n).toNat = s.pc.toNat + n := by
  have hpc := hr.pc
  have hsize := hr.size
  rw [BitVec.toNat_add, BitVec.toNat_ofNat]
  omega

theorem step_of_noOperands {header : Byte → Prop} {i : Instr} {t : State} (hr : Running s)
    (hruns : runsFrom header 1 (fun _ _ _ => i)) (hh : header (s.mem.read s.pc.toNat)) (hexec : exec i s = .next t) :
    step s = .next t :=
  ((hruns s hr.fatal hr.stat hr.pc hh).1 hr.pc).trans hexec

theorem step_of_regs {header : Byte → Prop} {k : Nybble → Nybble → Instr} {body : Byte → State} (hr : Running s)
    (hruns : runsFrom header 2 (fun rA rB _ => k rA rB)) (hh : header (s.mem.read s.pc.toNat))
    (hexec : ∀ rb, exec (k (hi rb) (lo rb)) s = .next (body rb)) :
    step s = .next (orStop (s.readByte (s.pc + 1)) s body) := by
  obtain ⟨hrun, hfault⟩ := hruns s hr.fatal hr.stat hr.pc hh
  have hpc : (s.pc + 1).toNat = s.pc.toNat + 1 := hr.pc_add_toNat (n := 1) (by decide)
  rcases Nat.lt_or_ge s.cfg.memSize (s.pc.toNat + 2) with hlt | hle
  · rw [hfault hlt, readByte_eq_none.2 (by omega), orStop_none]
  · rw [hrun hle, hexec, readByte_eq_some.2 ⟨by omega, rfl⟩, hpc, orStop_some]

theorem step_of_word {header : Byte → Prop} {k : Word → Instr} {body : Word → State} (hr : Running s)
    (hruns : runsFrom header 9 (fun _ _ v => k v)) (hh : header (s.mem.read s.pc.toNat))
    (hexec : ∀ v, exec (k v) s = .next (body v)) :
    step s = .next (orStop (s.readWord (s.pc + 1)) s body) := by
  obtain ⟨hrun, hfault⟩ := hruns s hr.fatal hr.stat hr.pc hh
  have hpc : (s.pc + 1).toNat = s.pc.toNat + 1 := hr.pc_add_toNat (n := 1) (by decide)
  rcases Nat.lt_or_ge s.cfg.memSize (s.pc.toNat + 9) with hlt | hle
  · rw [hfault hlt, readWord_eq_none.2 (by omega), orStop_none]
  · rw [hrun hle, hexec, readWord_eq_some.2 ⟨by omega, rfl⟩, hpc, orStop_some]
    rfl

theorem step_of_regsWord {header : Byte → Prop} {k : Nybble → Nybble → Word → Instr} {body : Byte → Word → State}
    (hr : Running s) (hruns : runsFrom header 10 k) (hh : header (s.mem.read s.pc.toNat))
    (hexec : ∀ rb v, exec (k (hi rb) (lo rb) v) s = .next (body rb v)) :
    step s = .next (orStop (s.readByte (s.pc + 1)) s fun rb => orStop (s.readWord (s.pc + 2)) s (body rb)) := by
  obtain ⟨hrun, hfault⟩ := hruns s hr.fatal hr.stat hr.pc hh
  have hpc1 : (s.pc + 1).toNat = s.pc.toNat + 1 := hr.pc_add_toNat (n := 1) (by decide)
  have hpc2 : (s.pc + 2).toNat = s.pc.toNat + 2 := hr.pc_add_toNat (n := 2) (by decide)
  rcases Nat.lt_or_ge s.cfg.memSize (s.pc.toNat + 10) with hlt | hle
  · rw [hfault hlt, readWord_eq_none.2 (by omega)]
    cases s.readByte (s.pc + 1) <;> rfl
  · rw [hrun hle, hexec, readByte_eq_some.2 ⟨by omega, rfl⟩, readWord_eq_some.2 ⟨by omega, rfl⟩, hpc1, hpc2]
    rfl

/-! The instructions. -/

theorem pseudoCond_eq (sel : Nybble) (cc : Byte) : pseudoCond sel cc = (condOfNybble sel).map (condHolds · cc) := by
  unfold pseudoCond condOfNybble
  generalize sel.toNat = n
  match n with
  | 0 | 1 | 2 | 3 | 4 | 5 | 6 => rfl
  | n + 7 => rfl

theorem pseudoCond_nybbleOfCond (c : Cond) (cc : Byte) : pseudoCond (nybbleOfCond c) cc = some (condHolds c cc) := by
  rw [pseudoCond_eq, condOfNybble_nybbleOfCond, Option.map_some]

theorem pseudoCond_of_bad {sel : Nybble} (h : 7 ≤ sel.toNat) (cc : Byte) : pseudoCond sel cc = none := by
  rw [pseudoCond_eq, condOfNybble_eq_none.2 h, Option.map_none]

theorem moveFrame_eq_pseudo (c : Cond) (rA rB : Nybble) : moveFrame c rA rB s = .next (
    orStop (s.writePc (s.pc + 2)) s fun s1 =>
    if condHolds c s.cc then
      orStop (s1.readReg rA) s1 fun v =>
      orStop (s1.writeReg rB v) s1 fun s2 => s2
    else s1) := by
  refine orAddressFault_eq_orStop fun s1 => ?_
  split
  · exact orAddressFault_eq_orStop fun v => orAddressFault_eq_orStop fun s2 => rfl
  · rfl

theorem step_move (hr : Running s) (c : Cond) (hb : s.mem.read s.pc.toNat = headerOf .cmov (nybbleOfCond c)) :
    step s = .next (pseudoCmov (nybbleOfCond c) s) := by
  rw [pseudoCmov, pseudoCond_nybbleOfCond]
  exact step_of_regs hr (runsFrom_move c) hb fun rb => (exec_ofMove ..).trans (moveFrame_eq_pseudo ..)

theorem step_irmov (hr : Running s) (hb : hi (s.mem.read s.pc.toNat) = 3) : step s = .next (pseudoIrmov s) :=
  step_of_regsWord hr runsFrom_irmov hb fun _ _ => orAddressFault_eq_orStop fun _ => orAddressFault_eq_orStop fun _ => rfl

theorem step_rmmov (hr : Running s) (hb : hi (s.mem.read s.pc.toNat) = 4) : step s = .next (pseudoRmmov s) :=
  step_of_regsWord hr runsFrom_rmmov hb fun _ _ => orAddressFault_eq_orStop fun _ => orAddressFault_eq_orStop fun _ =>
    orAddressFault_eq_orStop fun _ => orAddressFault_eq_orStop fun _ => rfl

theorem step_mrmov (hr : Running s) (hb : hi (s.mem.read s.pc.toNat) = 5) : step s = .next (pseudoMrmov s) :=
  step_of_regsWord hr runsFrom_mrmov hb fun _ _ => orAddressFault_eq_orStop fun _ => orAddressFault_eq_orStop fun _ =>
    orAddressFault_eq_orStop fun _ => orAddressFault_eq_orStop fun _ => rfl

/-- The flag byte as the pseudocode builds it, by value. -/
theorem aluFlags_eq_ofNat (f : AluFn) (a b : Word) : aluFlags f a b =
    BitVec.ofNat 8 (4 * (if aluResult f a b = 0 then 1 else 0) + 2 * (aluResult f a b).msb.toNat +
      (aluOverflow f a b (aluResult f a b)).toNat) := by
  have hsign : sign (aluResult f a b) = (aluResult f a b).msb := (BitVec.msb_eq_getLsbD_last _).symm
  apply BitVec.eq_of_toNat_eq
  rw [aluFlags, packCc_toNat, hsign, BitVec.toNat_ofNat]
  have hsf := Bool.toNat_le (aluResult f a b).msb
  have hovf := Bool.toNat_le (aluOverflow f a b (aluResult f a b))
  by_cases h0 : aluResult f a b = 0
  · rw [if_pos h0, decide_eq_true h0, Bool.toNat_true]
    omega
  · rw [if_neg h0, decide_eq_false h0, Bool.toNat_false]
    omega

theorem aluOverflow_eq (f : AluFn) (a b r : Word) : aluOverflow f a b r =
    match f with
    | .add => decide (a.msb = b.msb ∧ r.msb ≠ a.msb)
    | .sub => decide (a.msb ≠ b.msb ∧ r.msb ≠ b.msb)
    | .and | .xor => false := by
  have hsign (v : Word) : sign v = v.msb := (BitVec.msb_eq_getLsbD_last v).symm
  cases f with
  | add | sub =>
    simp only [aluOverflow, hsign]
    generalize a.msb = p, b.msb = q, r.msb = w
    revert p q w
    decide
  | and | xor => rfl

/-- The lines of an ALU instruction after its register byte, in the pseudocode's form. -/
theorem pseudoAlu_nybbleOfAluFn (f : AluFn) : pseudoAlu (nybbleOfAluFn f) s =
    orStop (s.readByte (s.pc + 1)) s fun rb =>
    orStop (s.readReg (hi rb)) s fun a =>
    orStop (s.readReg (lo rb)) s fun b =>
    orStop (s.writeReg (lo rb) (aluResult f a b)) s fun s1 =>
    orStop (State.writePc { s1 with cc := aluFlags f a b } (s.pc + 2)) { s1 with cc := aluFlags f a b } fun s3 => s3 := by
  cases f <;> simp only [aluFlags_eq_ofNat, aluOverflow_eq] <;> rfl

theorem step_alu (hr : Running s) (f : AluFn) (hb : s.mem.read s.pc.toNat = headerOf .alu (nybbleOfAluFn f)) :
    step s = .next (pseudoAlu (nybbleOfAluFn f) s) := by
  rw [pseudoAlu_nybbleOfAluFn]
  exact step_of_regs hr (runsFrom_alu f) hb fun rb => (exec_ofAlu ..).trans <| orAddressFault_eq_orStop fun a =>
    orAddressFault_eq_orStop fun b => orAddressFault_eq_orStop fun s1 => orAddressFault_eq_orStop fun s3 => rfl

/-- A jump that is not taken reads no destination; where its word is missing the next address is outside memory too. -/
theorem step_jump (hr : Running s) (c : Cond) (hb : s.mem.read s.pc.toNat = headerOf .jump (nybbleOfCond c)) :
    step s = .next (pseudoJxx (nybbleOfCond c) s) := by
  have hstep : step s = .next (orStop (s.readWord (s.pc + 1)) s fun v =>
      orStop (s.writePc (if condHolds c s.cc then v else s.pc + 9)) s fun s1 => s1) :=
    step_of_word hr (runsFrom_jump c) hb fun v => (exec_ofJump ..).trans (orAddressFault_eq_orStop fun _ => rfl)
  rw [hstep, pseudoJxx, pseudoCond_nybbleOfCond]
  cases hc : condHolds c s.cc with
  | true => rfl
  | false =>
    cases hv : s.readWord (s.pc + 1) with
    | some v => rfl
    | none =>
      have hmissing := readWord_eq_none.1 hv
      have hpc1 : (s.pc + 1).toNat = s.pc.toNat + 1 := hr.pc_add_toNat (n := 1) (by decide)
      have hpc9 : (s.pc + 9).toNat = s.pc.toNat + 9 := hr.pc_add_toNat (n := 9) (by decide)
      have hend : s.writePc (s.pc + 9) = none := writePc_eq_none.2 (by omega)
      rw [hend]
      rfl

theorem step_call (hr : Running s) (hb : hi (s.mem.read s.pc.toNat) = 8) : step s = .next (pseudoCall s) := by
  have hlines (v : Word) : exec (.call v) s = .next (
      orStop ((s.setSp s.pushAddress).writeWord s.pushAddress (s.pc + 9)) (s.setSp s.pushAddress) fun s2 =>
      orStop (s2.writePc v) s2 fun s3 => s3) :=
    orAddressFault_eq_orStop fun _ => orAddressFault_eq_orStop fun _ => rfl
  exact step_of_word hr runsFrom_call hb hlines

theorem step_ret (hr : Running s) (hb : hi (s.mem.read s.pc.toNat) = 9) : step s = .next (pseudoRet s) := by
  have hlines : exec .ret s = .next (
      orStop (s.readWord s.sp) s fun v =>
      orStop (s.writePc v) s fun s1 => s1.setSp (s.sp + 8)) :=
    orAddressFault_eq_orStop fun _ => orAddressFault_eq_orStop fun _ => rfl
  exact step_of_noOperands hr runsFrom_ret hb hlines

theorem step_push (hr : Running s) (hsp : s.cfg.spOperand = .adjusted) (hb : hi (s.mem.read s.pc.toNat) = 0xA) :
    step s = .next (pseudoPush s) := by
  have hoperand : pushOperandState s (s.setSp s.pushAddress) = s.setSp s.pushAddress := by rw [pushOperandState, hsp]
  have hlines (rA : Nybble) : exec (.push rA) s = .next (
      orStop ((s.setSp s.pushAddress).readReg rA) (s.setSp s.pushAddress) fun v =>
      orStop ((s.setSp s.pushAddress).writeWord s.pushAddress v) (s.setSp s.pushAddress) fun s2 =>
      orStop (s2.writePc (s.pc + 2)) s2 fun s3 => s3) := by
    rw [exec, execPush, hoperand]
    exact orAddressFault_eq_orStop fun _ => orAddressFault_eq_orStop fun _ => orAddressFault_eq_orStop fun _ => rfl
  exact step_of_regs hr runsFrom_push hb fun rb => hlines (hi rb)

theorem step_pop (hr : Running s) (hsp : s.cfg.spOperand = .adjusted) (hb : hi (s.mem.read s.pc.toNat) = 0xB) :
    step s = .next (pseudoPop s) := by
  have hlines (rA : Nybble) : exec (.pop rA) s = .next (
      orStop (s.readWord s.sp) s fun v =>
      orStop (s.writeReg rA v) s fun s1 =>
      orStop ((s1.setSp (s.sp + 8)).writePc (s.pc + 2)) (s1.setSp (s.sp + 8)) fun s2 => s2) := by
    refine orAddressFault_eq_orStop fun v => ?_
    rw [State.popRegs, hsp]
    cases s.writeReg rA v with
    | none => rfl
    | some s1 => exact orAddressFault_eq_orStop (s := s1.setSp (s.sp + 8)) fun _ => rfl
  exact step_of_regs hr runsFrom_pop hb fun rb => hlines (hi rb)

/-! The header bytes that are no instruction. -/

theorem step_of_badSelector (hr : Running s) {b : Byte} (hb : s.mem.read s.pc.toNat = b) (hbad : badSelectorHeader b) :
    step s = .next { s with fatal := some ⟨s.pc, lo b⟩ } := by
  subst hb
  exact (badSelectorIsFatal s).2.2 hr.fatal hr.stat hr.pc hbad

theorem pseudoCmov_of_bad {sel : Nybble} (h : 7 ≤ sel.toNat) :
    pseudoCmov sel s = { s with fatal := some ⟨s.pc, sel⟩ } := by
  rw [pseudoCmov, pseudoCond_of_bad h]

theorem pseudoJxx_of_bad {sel : Nybble} (h : 7 ≤ sel.toNat) :
    pseudoJxx sel s = { s with fatal := some ⟨s.pc, sel⟩ } := by
  rw [pseudoJxx, pseudoCond_of_bad h]

theorem step_of_illegalAluFunction (hr : Running s) {fn : Nybble} (hf : 4 ≤ fn.toNat)
    (hb : s.mem.read s.pc.toNat = headerOf .alu fn) : step s = .next (pseudoAlu fn s) := by
  have hrange : ∀ fn : Nybble, 4 ≤ fn.toNat → 0x64 ≤ (headerOf .alu fn).toNat ∧ (headerOf .alu fn).toNat ≤ 0x6F := by decide
  obtain ⟨hge, hle⟩ := hrange fn hf
  rw [pseudoAlu, if_pos (by omega)]
  exact (illegalAluFunctionFaults s).2 hr.fatal hr.stat hr.pc (hb ▸ hge) (hb ▸ hle)

theorem pseudoDispatch_of_illegal {op : Nybble} (h : 0xC ≤ op.toNat) (fn : Nybble) :
    pseudoDispatch op fn s = { s with stat := .ins } := by
  unfold pseudoDispatch
  generalize op.toNat = n at h
  match n, h with
  | n + 12, _ => rfl

/-- The running engine's step is the dispatch on its header's nybbles. -/
theorem step_eq_pseudoDispatch (hr : Running s) (hsp : s.cfg.spOperand = .adjusted) :
    step s = .next (pseudoDispatch (hi (s.mem.read s.pc.toNat)) (lo (s.mem.read s.pc.toNat)) s) := by
  generalize hb : s.mem.read s.pc.toNat = b
  have hop {n : Nybble} {t : State} (h : hi b = n) (hstep : hi (s.mem.read s.pc.toNat) = n → step s = .next t)
      (hd : ∀ fn, pseudoDispatch n fn s = t) : step s = .next (pseudoDispatch (hi b) (lo b) s) := by
    rw [h, hd, hstep (hb ▸ h)]
  rcases header_cases b with h | h | ⟨c, rfl⟩ | ⟨sel, hs, rfl⟩ | h | h | h | ⟨f, rfl⟩ | ⟨fn, hf, rfl⟩ | ⟨c, rfl⟩ |
    ⟨sel, hs, rfl⟩ | h | h | h | h | h
  · exact hop h (fun h => step_of_noOperands hr runsFrom_halt h rfl) fun _ => rfl
  · exact hop h (fun h => step_of_noOperands hr runsFrom_nop h (orAddressFault_eq_orStop fun _ => rfl)) fun _ => rfl
  · rw [hi_headerOf, lo_headerOf]
    exact step_move hr c hb
  · have hstep := step_of_badSelector hr hb ((badSelectorHeader_iff _).2 (by simp [nybbleOfBaseOp, hs]))
    rw [lo_headerOf, ← pseudoCmov_of_bad hs] at hstep
    rw [hi_headerOf, lo_headerOf]
    exact hstep
  · exact hop h (step_irmov hr) fun _ => rfl
  · exact hop h (step_rmmov hr) fun _ => rfl
  · exact hop h (step_mrmov hr) fun _ => rfl
  · rw [hi_headerOf, lo_headerOf]
    exact step_alu hr f hb
  · rw [hi_headerOf, lo_headerOf]
    exact step_of_illegalAluFunction hr hf hb
  · rw [hi_headerOf, lo_headerOf]
    exact step_jump hr c hb
  · have hstep := step_of_badSelector hr hb ((badSelectorHeader_iff _).2 (by simp [nybbleOfBaseOp, hs]))
    rw [lo_headerOf, ← pseudoJxx_of_bad hs] at hstep
    rw [hi_headerOf, lo_headerOf]
    exact hstep
  · exact hop h (step_call hr) fun _ => rfl
  · exact hop h (step_ret hr) fun _ => rfl
  · exact hop h (step_push hr hsp) fun _ => rfl
  · exact hop h (step_pop hr hsp) fun _ => rfl
  · rw [pseudoDispatch_of_illegal h]
    exact step_of_noOperands hr (runsFrom_illegalBaseOpcode h) hb (exec_illegalBaseOpcode b s)

/-- Settles O11: a stopped engine does nothing in both; a running one reads its header, which the invariant puts inside
memory, and dispatches. -/
theorem stepAgreesWithThePseudocode : Obligations.StepAgreesWithThePseudocode := by
  intro s ⟨⟨_, hsize, _⟩, hpc, _⟩ hsp
  by_cases hf : s.fatal.isSome = true
  · rw [pseudoStep, if_pos hf]
    exact step_of_stopped (stopped_iff.2 (.inr hf))
  rw [pseudoStep, if_neg hf]
  by_cases hs : s.stat = .run
  · rw [if_neg (not_not.2 hs), readByte_eq_some.2 ⟨hpc, rfl⟩]
    exact step_eq_pseudoDispatch ⟨by simpa using hf, hs, hpc, hsize⟩ hsp
  · rw [if_pos hs]
    exact step_of_stopped (stopped_iff.2 (.inl hs))

end Sys2Proof.Machine
end
